-- ==== Sys2Proof/Word.lean ====
section
/-! DEFINITION. The word types of the block and the least arithmetic every other file needs. -/

namespace Sys2Proof

/-- One byte of a frame, of the framebuffer or of the wire. -/
abbrev Byte := BitVec 8

/-- One command word, presented whole on the host command port (R55). -/
abbrev Word := BitVec 64

/-- `roundup4(n)`: the least multiple of 4 that is at least `n` (R15). -/
def roundup4 (n : Nat) : Nat := (n + 3) / 4 * 4

end Sys2Proof
end

