-- ==== Sys2Proof/Syntax.lean ====
section
/-! DEFINITION. The commands of the block: one constructor per row of the opcode map (30_encoding.md R59). -/

namespace Sys2Proof

/-- A command with its operands (R57, R58). A coordinate or extent is the integer its field stands for; every
other operand is the unsigned field itself. -/
inductive Instr where
  /-- BEGIN_FRAME, format N. -/
  | beginFrame
  /-- APPEND size, svc, cmd, format A. -/
  | append (size svc : Byte) (cmd : BitVec 16)
  /-- PUT_DATA byte, format B. -/
  | putData (byte : Byte)
  /-- FINALIZE, format N. -/
  | finalize
  /-- READ_TX index, format I. -/
  | readTx (index : Byte)
  /-- EXCHANGE, format N. -/
  | exchange
  /-- READ_RX index, format I. -/
  | readRx (index : Byte)
  /-- POLL_READY, format N. -/
  | pollReady
  /-- DECODE, format N. -/
  | decode
  /-- CLEAR color, format C. -/
  | clear (color : BitVec 4)
  /-- SET_PIXEL x, y, color, format P. -/
  | setPixel (x y : Int) (color : BitVec 4)
  /-- GET_PIXEL x, y, format G. -/
  | getPixel (x y : Int)
  /-- FILL_RECT x, y, w, h, color, format R. -/
  | fillRect (x y w h : Int) (color : BitVec 4)
  /-- FORMAT_BEGIN_UPDATE, format N. -/
  | formatBeginUpdate
  /-- FORMAT_BATCH col, format K. -/
  | formatBatch (col : BitVec 12)
  /-- PUSH_FRAMEBUFFER, format N. -/
  | pushFramebuffer
  /-- IS_PRESSED mask, format Q. -/
  | isPressed (mask : Byte)
  /-- IS_DOWN mask, format Q. -/
  | isDown (mask : Byte)
  /-- IS_UP mask, format Q. -/
  | isUp (mask : Byte)
  deriving DecidableEq, Repr

end Sys2Proof
end

