-- ==== Sys2Proof/WellFormed.lean ====
section
/-! DEFINITION. Which commands a command word can hold: the operand ranges of 30_encoding.md R57. -/

namespace Sys2Proof

/-- A coordinate or extent that a 12-bit two's-complement field can hold: -2048 to 2047 (R57). -/
def coordFits (v : Int) : Bool := decide (-2048 ≤ v) && decide (v ≤ 2047)

/-- Every operand lies in its field's range. Only coordinates and extents can fall outside; the type of every
other operand is its field. An operand outside its range is an assembly error, not a command (R68). -/
def Instr.wf : Instr → Bool
  | .beginFrame => true
  | .append _ _ _ => true
  | .putData _ => true
  | .finalize => true
  | .readTx _ => true
  | .exchange => true
  | .readRx _ => true
  | .pollReady => true
  | .decode => true
  | .clear _ => true
  | .setPixel x y _ => coordFits x && coordFits y
  | .getPixel x y => coordFits x && coordFits y
  | .fillRect x y w h _ => coordFits x && coordFits y && coordFits w && coordFits h
  | .formatBeginUpdate => true
  | .formatBatch _ => true
  | .pushFramebuffer => true
  | .isPressed _ => true
  | .isDown _ => true
  | .isUp _ => true

end Sys2Proof
end

