-- ==== Sys2Proof/Decode.lean ====
section
/-! DEFINITION. The command word: formats, opcode map, decoder and encoder (30_encoding.md R55 to R60). -/

namespace Sys2Proof

/-- The command formats of R58. -/
inductive Format where
  | N | A | B | I | C | P | G | R | K | Q
  deriving DecidableEq, Repr

/-- The mask column of R58: a 1 in every bit that is fixed, the op field and the reserved-zero bits. -/
def formatMask : Format → Word
  | .N => 0xFFFFFFFFFFFFFFFF
  | .A => 0xFFFFFF00000000FF
  | .B => 0xFFFFFFFFFFFF00FF
  | .I => 0xFFFFFFFFFFFF00FF
  | .C => 0xFFFFFFFFFFFFF0FF
  | .P => 0xFFFFFFF0000000FF
  | .G => 0xFFFFFFFF000000FF
  | .R => 0xF0000000000000FF
  | .K => 0xFFFFFFFFFFF000FF
  | .Q => 0xFFFFFFFFFFFF00FF

/-- The format of each listed op value, none for a reserved one (R59, R60). -/
def opFormat (op : Byte) : Option Format :=
  match op.toNat with
  | 0x01 => some .N
  | 0x02 => some .A
  | 0x03 => some .B
  | 0x04 => some .N
  | 0x05 => some .I
  | 0x08 => some .N
  | 0x09 => some .I
  | 0x0A => some .N
  | 0x0C => some .N
  | 0x10 => some .C
  | 0x11 => some .P
  | 0x12 => some .G
  | 0x13 => some .R
  | 0x18 => some .N
  | 0x19 => some .K
  | 0x1A => some .N
  | 0x20 => some .Q
  | 0x21 => some .Q
  | 0x22 => some .Q
  | _ => none

/-- `op = cw[7:0]` (R56). -/
def opOf (cw : Word) : Byte := cw.extractLsb' 0 8

/-- Why a word is no command (R60). -/
inductive Illegal where
  /-- The op value is not in the opcode map. -/
  | reservedOp
  /-- The op value is listed, and a reserved-zero bit is 1. -/
  | reservedBits
  deriving DecidableEq, Repr

/-- The coordinate or extent in the 12 bits from `lo` up: `sext_12` (R57). -/
def coordField (cw : Word) (lo : Nat) : Int := (cw.extractLsb' lo 12).toInt

/-- The command of a listed op with the fields of `cw` (R58, R59); none for a reserved op. -/
def buildInstr (cw : Word) : Option Instr :=
  match (opOf cw).toNat with
  | 0x01 => some .beginFrame
  | 0x02 => some (.append (cw.extractLsb' 8 8) (cw.extractLsb' 16 8) (cw.extractLsb' 24 16))
  | 0x03 => some (.putData (cw.extractLsb' 8 8))
  | 0x04 => some .finalize
  | 0x05 => some (.readTx (cw.extractLsb' 8 8))
  | 0x08 => some .exchange
  | 0x09 => some (.readRx (cw.extractLsb' 8 8))
  | 0x0A => some .pollReady
  | 0x0C => some .decode
  | 0x10 => some (.clear (cw.extractLsb' 8 4))
  | 0x11 => some (.setPixel (coordField cw 8) (coordField cw 20) (cw.extractLsb' 32 4))
  | 0x12 => some (.getPixel (coordField cw 8) (coordField cw 20))
  | 0x13 =>
    some (.fillRect (coordField cw 8) (coordField cw 20) (coordField cw 32) (coordField cw 44) (cw.extractLsb' 56 4))
  | 0x18 => some .formatBeginUpdate
  | 0x19 => some (.formatBatch (cw.extractLsb' 8 12))
  | 0x1A => some .pushFramebuffer
  | 0x20 => some (.isPressed (cw.extractLsb' 8 8))
  | 0x21 => some (.isDown (cw.extractLsb' 8 8))
  | 0x22 => some (.isUp (cw.extractLsb' 8 8))
  | _ => none

/-- The decoder, total on all words (R59, R60, R70): a word is the named command exactly when
`cw & mask = match`, where `match` is the op value zero-extended. -/
def decode (cw : Word) : Except Illegal Instr :=
  match opFormat (opOf cw) with
  | none => .error .reservedOp
  | some f =>
    if cw &&& formatMask f = (opOf cw).setWidth 64 then
      match buildInstr cw with
      | some i => .ok i
      | none => .error .reservedOp
    else .error .reservedBits

/-! The encoder. -/

/-- The op value of a command (R59). -/
def Instr.opcode : Instr → Nat
  | .beginFrame => 0x01
  | .append _ _ _ => 0x02
  | .putData _ => 0x03
  | .finalize => 0x04
  | .readTx _ => 0x05
  | .exchange => 0x08
  | .readRx _ => 0x09
  | .pollReady => 0x0A
  | .decode => 0x0C
  | .clear _ => 0x10
  | .setPixel _ _ _ => 0x11
  | .getPixel _ _ => 0x12
  | .fillRect _ _ _ _ _ => 0x13
  | .formatBeginUpdate => 0x18
  | .formatBatch _ => 0x19
  | .pushFramebuffer => 0x1A
  | .isPressed _ => 0x20
  | .isDown _ => 0x21
  | .isUp _ => 0x22

/-- The format of a command (R59). -/
def Instr.format : Instr → Format
  | .beginFrame => .N
  | .append _ _ _ => .A
  | .putData _ => .B
  | .finalize => .N
  | .readTx _ => .I
  | .exchange => .N
  | .readRx _ => .I
  | .pollReady => .N
  | .decode => .N
  | .clear _ => .C
  | .setPixel _ _ _ => .P
  | .getPixel _ _ => .G
  | .fillRect _ _ _ _ _ => .R
  | .formatBeginUpdate => .N
  | .formatBatch _ => .K
  | .pushFramebuffer => .N
  | .isPressed _ => .Q
  | .isDown _ => .Q
  | .isUp _ => .Q

/-- The 12-bit two's-complement field of a coordinate or extent, as a number (R57). -/
def coordBits (v : Int) : Nat := (BitVec.ofInt 12 v).toNat

/-- The operand fields of a command, each at its place, as one number (R58). -/
def Instr.fieldBits : Instr → Nat
  | .beginFrame => 0
  | .append size svc cmd => size.toNat * 2 ^ 8 + svc.toNat * 2 ^ 16 + cmd.toNat * 2 ^ 24
  | .putData byte => byte.toNat * 2 ^ 8
  | .finalize => 0
  | .readTx index => index.toNat * 2 ^ 8
  | .exchange => 0
  | .readRx index => index.toNat * 2 ^ 8
  | .pollReady => 0
  | .decode => 0
  | .clear color => color.toNat * 2 ^ 8
  | .setPixel x y color => coordBits x * 2 ^ 8 + coordBits y * 2 ^ 20 + color.toNat * 2 ^ 32
  | .getPixel x y => coordBits x * 2 ^ 8 + coordBits y * 2 ^ 20
  | .fillRect x y w h color =>
    coordBits x * 2 ^ 8 + coordBits y * 2 ^ 20 + coordBits w * 2 ^ 32 + coordBits h * 2 ^ 44 + color.toNat * 2 ^ 56
  | .formatBeginUpdate => 0
  | .formatBatch col => col.toNat * 2 ^ 8
  | .pushFramebuffer => 0
  | .isPressed mask => mask.toNat * 2 ^ 8
  | .isDown mask => mask.toNat * 2 ^ 8
  | .isUp mask => mask.toNat * 2 ^ 8

/-- The command word of a well-formed command (R56, R58, R59). -/
def encode (i : Instr) : Word := BitVec.ofNat 64 (i.opcode + i.fieldBits)

/-- The command read from a word whose bits, numbered as spec/opcode_table.json numbers them, are `w`; the bits at
and above `nbits` are 0. The port is parallel, so the word has no byte order (R55). -/
def decodeTableWord (nbits w : Nat) : Option Instr :=
  match decode (BitVec.ofNat 64 (w % 2 ^ nbits)) with
  | .ok i => some i
  | .error _ => none

end Sys2Proof
end

