-- ==== Sys2Proof/Config.lean ====
section
/-! DEFINITION. What is fixed for the life of the block: the parameters of 00_scope.md, and the free values
(constants without a body, so that nothing can be proved of what they are). -/

namespace Sys2Proof

/-- `PAYLOAD_CAP`, the byte capacity of a frame's payload region (R7). -/
abbrev payloadCap : Nat := 240

/-- `FRAME_HDR`, the size of the frame header (R8). -/
abbrev frameHdr : Nat := 12

/-- `FRAME_SIZE`, the size of a frame: an exchange moves exactly this many bytes each way (R8). -/
abbrev frameSize : Nat := 252

/-- `PKT_HDR`, the size of a packet header (R9). -/
abbrev pktHdr : Nat := 4

/-- `BATCH_COLS`, the number of framebuffer columns per batch frame (R10). -/
abbrev batchCols : Nat := 3

/-- `4 + roundup4(size)`: the bytes one packet occupies in a payload (R63, glossary "Footprint"). -/
def footprint (size : Nat) : Nat := pktHdr + roundup4 size

/-- The well-formedness of a display size, the three conditions of R11. -/
structure Fits (W H : Nat) : Prop where
  heightEven : H % 2 = 0
  heightTwo : 2 ≤ H
  batchFits : batchCols * (4 + roundup4 (H / 2)) ≤ payloadCap
  widthOne : 1 ≤ W
  widthCoord : W ≤ 2047

/-- The check of R11 as a Boolean. -/
def fitsCheck (W H : Nat) : Bool :=
  H % 2 == 0 && Nat.ble 2 H && Nat.ble (batchCols * (4 + roundup4 (H / 2))) payloadCap && Nat.ble 1 W
    && Nat.ble W 2047

/-- The protocol constants of R12, every one OPEN. -/
structure Constants where
  /-- `MAGIC`: the link protocol's 2-byte sentinel. -/
  magic : BitVec 16
  /-- `DEVICE_ID`: the one addressed peer. -/
  deviceId : BitVec 64
  /-- `DISPLAY_SVC`. -/
  displaySvc : Byte
  /-- `GAMEPAD_SVC`. -/
  gamepadSvc : Byte
  /-- `CMD_BEGIN_UPDATE`. -/
  cmdBeginUpdate : BitVec 16
  /-- `CMD_SET_PIXELS`. -/
  cmdSetPixels : BitVec 16
  /-- `CMD_GET_READING`. -/
  cmdGetReading : BitVec 16
  deriving DecidableEq, Repr

/-- A well-formed configuration (R11, R12, R39). A configuration that does not fit cannot be built
(`Config.ofParameters` gives none), so no state of the machine holds one. -/
structure Config where
  /-- `W`, the framebuffer width in pixels (R11). -/
  W : Nat
  /-- `H`, the framebuffer height in pixels (R11). -/
  H : Nat
  /-- The protocol constants (R12). -/
  k : Constants
  /-- R11 holds of `W` and `H`. -/
  fits : Fits W H
  deriving DecidableEq, Repr

theorem fitsCheck_iff (W H : Nat) : fitsCheck W H = true ↔ Fits W H := by
  constructor
  · intro h
    simp only [fitsCheck, Bool.and_eq_true, beq_iff_eq, Nat.ble_eq] at h
    exact ⟨h.1.1.1.1, h.1.1.1.2, h.1.1.2, h.1.2, h.2⟩
  · intro h
    simp only [fitsCheck, Bool.and_eq_true, beq_iff_eq, Nat.ble_eq]
    exact ⟨⟨⟨⟨h.heightEven, h.heightTwo⟩, h.batchFits⟩, h.widthOne⟩, h.widthCoord⟩

/-- The configuration with these parameters, or none where R11 does not hold of them. -/
def Config.ofParameters (W H : Nat) (k : Constants) : Option Config :=
  if h : fitsCheck W H = true then some ⟨W, H, k, (fitsCheck_iff W H).mp h⟩ else none

/-- `H/2`: the bytes of one column (R43). -/
def Config.halfH (c : Config) : Nat := c.H / 2

/-- `FB_BYTES = W * (H/2)` (R11). -/
def Config.fbBytes (c : Config) : Nat := c.W * c.halfH

/-! The free values. -/

/-- FREE VALUE (D6): `W - 1` of the block at hand. -/
opaque Config.freeCols : Fin 2047
/-- FREE VALUE (D6): `H/2 - 1` of the block at hand; R11 allows the even heights 2 to 152. -/
opaque Config.freePairs : Fin 76
/-- FREE VALUE (D5): `MAGIC` of the block at hand. -/
opaque Config.freeMagic : BitVec 16
/-- FREE VALUE (D5): `DEVICE_ID` of the block at hand. -/
opaque Config.freeDeviceId : BitVec 64
/-- FREE VALUE (D5): `DISPLAY_SVC` of the block at hand. -/
opaque Config.freeDisplaySvc : Byte
/-- FREE VALUE (D5): `GAMEPAD_SVC` of the block at hand. -/
opaque Config.freeGamepadSvc : Byte
/-- FREE VALUE (D5): `CMD_BEGIN_UPDATE` of the block at hand. -/
opaque Config.freeCmdBeginUpdate : BitVec 16
/-- FREE VALUE (D5): `CMD_SET_PIXELS` of the block at hand. -/
opaque Config.freeCmdSetPixels : BitVec 16
/-- FREE VALUE (D5): `CMD_GET_READING` of the block at hand. -/
opaque Config.freeCmdGetReading : BitVec 16
/-- FREE VALUE (D19, I9): the byte the transport answers to its n-th `Transfer`, where the state lists no answer. -/
opaque Config.freeTransfer : Nat → Byte
/-- FREE VALUE (D20, I10): the n-th sample of the ready line, where the state lists no sample. -/
opaque Config.freeReady : Nat → Bool
/-- FREE VALUE (D32): the bit place, less one, of each of the seven logical buttons; one place for each name. -/
opaque Config.buttonPlace : Equiv.Perm (Fin 7)

theorem fits_of_free (w : Fin 2047) (p : Fin 76) : Fits (w.val + 1) (2 * (p.val + 1)) := by
  have hw := w.isLt
  have hp := p.isLt
  refine ⟨?_, ?_, ?_, ?_, ?_⟩ <;> (try simp only [roundup4, batchCols, payloadCap]) <;> omega

/-- The protocol constants of the block at hand: all free (R12). -/
def Constants.part : Constants :=
  { magic := Config.freeMagic, deviceId := Config.freeDeviceId, displaySvc := Config.freeDisplaySvc,
    gamepadSvc := Config.freeGamepadSvc, cmdBeginUpdate := Config.freeCmdBeginUpdate,
    cmdSetPixels := Config.freeCmdSetPixels, cmdGetReading := Config.freeCmdGetReading }

/-- The configuration of the block at hand: any well-formed one, nothing else is known of it (log entry 1). -/
def Config.part : Config :=
  ⟨Config.freeCols.val + 1, 2 * (Config.freePairs.val + 1), Constants.part, fits_of_free _ _⟩

/-- `BUTTON_MASK(name)`: the single-bit query mask of a named button, names being the seven numbers (R13, R113). -/
def buttonMask (name : Fin 7) : Byte := 1#8 <<< ((Config.buttonPlace name).val + 1)

end Sys2Proof
end

