-- ==== Sys2Proof/Machine/State.lean ====
section
/-! DEFINITION. The state of the block as plain data, the reasons a step can stop, and the state after reset
(10_state.md, 70_reset_and_hazards.md). -/

namespace Sys2Proof.Machine

/-- A byte store (TX, RX or FB): (address, byte) pairs, addresses strictly rising, no pair with byte 0; an address
that is not listed reads 0, the reset contents of all three stores (R24, R25, R26; log entry 16). -/
abbrev Memory := List Host.Cell

/-- The canonical form of a store. -/
abbrev Memory.wf (m : Memory) : Prop := m.Pairwise (fun p q => p.1 < q.1) ∧ ∀ p ∈ m, p.2 ≠ 0

/-- Every listed address of the store is below `n`, its size in bytes (R40). -/
abbrev Memory.within (n : Nat) (m : Memory) : Prop := ∀ p ∈ m, p.1 < n

/-- What `STATUS.FCODE` can hold: the recorded codes of R115. -/
inductive FaultCode where
  /-- 0: no fault recorded. -/
  | none
  /-- 1: a reserved op, or a nonzero reserved-zero bit. -/
  | illegalCommand
  /-- 2: APPEND past the payload capacity. -/
  | appendOverflow
  /-- 3: PUT_DATA with `DREM = 0`. -/
  | dataWindow
  /-- 4: READ_TX or READ_RX index at or above 252; FORMAT_BATCH column at or above W. -/
  | indexRange
  deriving DecidableEq, Repr

/-- The fields of `STATUS` (R27). The register is read-only to the host and no command writes it as data, so its
reserved bits need no storage: the word made of the fields has 0 there. -/
structure Status where
  /-- Bit 0, `CONNECTED`: peer ready seen at least once (R28). -/
  connected : Bool
  /-- Bit 1, `RXV`: RX holds a valid frame (R29). -/
  rxv : Bool
  /-- Bit 2, `RXD`: RX has been decoded since the last exchange (R30). -/
  rxd : Bool
  /-- Bit 3, `BUSY`: a PUSH_FRAMEBUFFER is in progress (R31). -/
  busy : Bool
  /-- Bit 7, `FAULT`: a fault has been recorded (R32). -/
  fault : Bool
  /-- Bits 11:8, `FCODE`: the first fault's code (R32). -/
  fcode : FaultCode
  deriving DecidableEq, Repr

/-- `SEQ`, the push sequencer's position (R37). -/
inductive Seq where
  | idle
  | wait
  deriving DecidableEq, Repr

/-- The environment the block meets through `Transfer` and `SampleReady` (R17), the model's own fields
(log entries 6, 7, 8). -/
structure Env where
  /-- The bytes the transport answers next, oldest first; past their end each answer is a free value. -/
  transferIn : List Byte
  /-- The samples of the ready line that come next, oldest first; past their end each sample is a free value. -/
  readyIn : List Bool
  /-- How many times `Transfer` has been called. -/
  transfers : Nat
  /-- How many times `SampleReady` has been called. -/
  samples : Nat
  /-- The bytes sent to the peer, oldest first (R48). -/
  wire : List Byte
  deriving DecidableEq, Repr

/-- The state of the machine: every piece of state the spec gives the block, its configuration, and the inputs. -/
structure State where
  /-- The configuration, which no step changes (R39; log entry 1). -/
  cfg : Config
  /-- `TX`, the outgoing frame, bytes 0 to 251 (R24). -/
  tx : Memory
  /-- `RX`, the incoming frame, bytes 0 to 251 (R25). -/
  rx : Memory
  /-- `FB`, the framebuffer, bytes 0 to FB_BYTES - 1 (R26). -/
  fb : Memory
  /-- `STATUS` (R27). -/
  status : Status
  /-- `RES` (R33). -/
  res : Byte
  /-- `BTN_CUR` (R34). -/
  btnCur : Byte
  /-- `BTN_PREV` (R34). -/
  btnPrev : Byte
  /-- `DPTR`, the data window's payload offset (R36). -/
  dptr : Byte
  /-- `DREM`, the bytes left in the data window (R36). -/
  drem : Byte
  /-- `SEQ` (R37). -/
  seq : Seq
  /-- `SEQ_COL`, the first column of the next batch (R37). -/
  seqCol : BitVec 12
  /-- The command words the host has issued and the block has not accepted, oldest first (R22, R23; log entry 3). -/
  port : List Word
  /-- The reset input: asserted for the next step (R128; log entry 5). -/
  resetIn : Bool
  /-- The byte transport and the ready line (R17). -/
  env : Env
  deriving DecidableEq, Repr

/-- The reasons a step stops with a fault. The block's own faults (R115) are no stops: they are recorded in STATUS
and the machine goes on (log entry 9). -/
inductive Fault where
  /-- Raised by PUT_DATA when its data window points past the last byte of TX, an address the spec says does not
  exist (R40). No run from reset reaches such a window (R72, R73). Safe: the model stops (log entry 10). -/
  | outsideTx (address : Nat)
  deriving DecidableEq, Repr

/-- The reasons a command or a configuration is refused. -/
inductive Refusal where
  /-- Raised by `exec` for an instruction whose meaning is not written yet. Safe: the model stops. No arm of `exec`
  answers it: every command has its meaning. -/
  | notModelled (mnemonic : String)
  /-- Raised by `State.boot` for a width and height that R11 does not allow. Safe: there is no machine of such a
  configuration (R18, R130; log entry 2). -/
  | illFormedConfiguration (W H : Nat)
  deriving DecidableEq, Repr

/-- `STATUS` after reset: every field 0 (R128). -/
def Status.reset : Status :=
  { connected := false, rxv := false, rxd := false, busy := false, fault := false, fcode := .none }

/-- The environment before anything has happened: no answer listed, so every draw is a free value. -/
def Env.fresh : Env := { transferIn := [], readyIn := [], transfers := 0, samples := 0, wire := [] }

/-- The block of configuration `c` right after reset: the reset table of R128. -/
def State.resetWith (c : Config) : State :=
  { cfg := c, tx := [], rx := [], fb := [], status := .reset, res := 0, btnCur := 0, btnPrev := 0, dptr := 0,
    drem := 0, seq := .idle, seqCol := 0, port := [], resetIn := false, env := .fresh }

/-- The machine right after reset (R128), of a configuration of which nothing is known but that it is well-formed. -/
def State.reset : State := State.resetWith Config.part

/-- The machine of a width, a height and protocol constants, after its first reset (R130): refused when the
configuration is ill-formed (R11, R18). -/
def State.boot (W H : Nat) (k : Constants) : Host.Outcome State Fault Refusal :=
  match Config.ofParameters W H k with
  | some c => .next (State.resetWith c)
  | none => .refused (.illFormedConfiguration W H)

end Sys2Proof.Machine
end

