-- ==== Sys2Proof/Machine/Ops.lean ====
section
/-! DEFINITION. The named operations over the byte stores and registers, the environment's two primitives, recording
a fault, reset, and the host register port. -/

namespace Sys2Proof.Machine

/-! Byte stores (00_scope.md R16). -/

/-- `S[a]`: byte `a` of a store. -/
def Memory.read : Memory → Nat → Byte
  | [], _ => 0
  | (a, v) :: m, k => if k = a then v else Memory.read m k

/-- A store with a nonzero byte put in at its place in the rising order. -/
def Memory.insert (k : Nat) (v : Byte) : Memory → Memory
  | [] => [(k, v)]
  | (a, u) :: m => if k < a then (k, v) :: (a, u) :: m else (a, u) :: Memory.insert k v m

/-- `S[k] <- v`. Writing 0, what an unlisted address reads as, removes the entry. -/
def Memory.write (m : Memory) (k : Nat) (v : Byte) : Memory :=
  let rest := m.filter (fun p => p.1 != k)
  if v = 0 then rest else Memory.insert k v rest

/-- `MemRead(S, a, n)`: the little-endian value of bytes `S[a .. a+n-1]` (R16). -/
def Memory.readLE (m : Memory) (a : Nat) : Nat → Nat
  | 0 => 0
  | n + 1 => (m.read a).toNat + 256 * Memory.readLE m (a + 1) n

/-- `MemWrite(S, a, n, v)`: `S[a+k] <- (v >> 8k) & 0xFF` for each `k` below `n` (R16). -/
def Memory.writeLE (m : Memory) (a : Nat) : Nat → Nat → Memory
  | 0, _ => m
  | n + 1, v => Memory.writeLE (m.write a (BitVec.ofNat 8 v)) (a + 1) n (v / 256)

/-- The store whose bytes from address `a` up are the listed ones, every other byte 0. -/
def Memory.ofBytesFrom (a : Nat) : List Byte → Memory
  | [] => []
  | b :: bs => if b = 0 then Memory.ofBytesFrom (a + 1) bs else (a, b) :: Memory.ofBytesFrom (a + 1) bs

/-- Bytes `S[a .. a+n-1]` in address order. -/
def Memory.bytesFrom (m : Memory) (a n : Nat) : List Byte := (List.range' a n).map m.read

/-! The environment (00_scope.md R17). -/

/-- The byte the transport answers next: a draw (R86). -/
def Env.nextByte (e : Env) : Byte :=
  match e.transferIn with
  | b :: _ => b
  | [] => Config.freeTransfer e.transfers

/-- `Transfer(b)`: sends `b`, and the answer is `Env.nextByte` (R17, R48). -/
def Env.afterTransfer (e : Env) (b : Byte) : Env :=
  { e with transferIn := e.transferIn.tail, transfers := e.transfers + 1, wire := e.wire ++ [b] }

/-- The next sample of the ready line: a draw (R17, D20). -/
def Env.nextReady (e : Env) : Bool :=
  match e.readyIn with
  | r :: _ => r
  | [] => Config.freeReady e.samples

/-- `SampleReady()`: each sample is a separate draw; the answer is `Env.nextReady`. -/
def Env.afterSample (e : Env) : Env :=
  { e with readyIn := e.readyIn.tail, samples := e.samples + 1 }

/-- One `Transfer` for each byte, strictly in order: the bytes received (R85). -/
def Env.receive : List Byte → Env → List Byte
  | [], _ => []
  | b :: bs, e => e.nextByte :: Env.receive bs (e.afterTransfer b)

/-- One `Transfer` for each byte, strictly in order: the environment afterwards (R85). -/
def Env.afterSend : List Byte → Env → Env
  | [], e => e
  | b :: bs, e => Env.afterSend bs (e.afterTransfer b)

/-! Faults (60_exceptions.md). -/

/-- `raise Fault(code)`: nothing is written but `STATUS.FAULT <- 1` and `STATUS.FCODE <- code` (R18, R116). -/
def State.raise (s : State) (code : FaultCode) : State :=
  { s with status := { s.status with fault := true, fcode := code } }

/-- How a command that started in `s` ends: with its writes made, or with its fault recorded and nothing else
written (R18, R116). -/
def State.finish (s : State) : Except FaultCode State → State
  | .ok t => t
  | .error code => s.raise code

/-! Reset (70_reset_and_hazards.md). -/

/-- Reset: every state element to its reset value, a push abandoned, commands not yet accepted discarded (R128).
The configuration stays (R39), and so do the transport and the ready line, which are external (R20). -/
def State.applyReset (s : State) : State := { State.resetWith s.cfg with env := s.env }

/-! The host (10_state.md R20). -/

/-- The host issues a command word on the command port, after those it issued before (R22, R23). -/
def State.present (s : State) (cw : Word) : State := { s with port := s.port ++ [cw] }

/-- The host asserts the reset input (R128). -/
def State.assertReset (s : State) : State := { s with resetIn := true }

end Sys2Proof.Machine
end

