-- ==== Sys2Proof/Machine/Flags.lean ====
section
/-! DEFINITION. The bits of STATUS: how they are computed, and how the host reads the register port. -/

namespace Sys2Proof.Machine

/-- The FCODE value of each fault (R115). -/
def FaultCode.code : FaultCode → BitVec 4
  | .none => 0
  | .illegalCommand => 1
  | .appendOverflow => 2
  | .dataWindow => 3
  | .indexRange => 4

/-- `STATUS` as the 16-bit register of R27: CONNECTED bit 0, RXV bit 1, RXD bit 2, BUSY bit 3, FAULT bit 7,
FCODE bits 11:8, every reserved bit 0. -/
def Status.word (t : Status) : BitVec 16 :=
  0#4 ++ t.fcode.code ++ BitVec.ofBool t.fault ++ 0#3 ++ BitVec.ofBool t.busy ++ BitVec.ofBool t.rxd
    ++ BitVec.ofBool t.rxv ++ BitVec.ofBool t.connected

/-- `valid(F)`: the magic matches and payload_length is not 0; nothing else is checked (R75). -/
def validFrame (c : Config) (f : Memory) : Bool :=
  decide (f.readLE 0 2 = c.k.magic.toNat) && decide (f.read 2 ≠ 0)

/-- What a query writes to RES: 1 or 0 (R110 to R112). -/
def flagByte (b : Bool) : Byte := if b then 1 else 0

/-- The host register port: STATUS at 0, RES at 1, BUTTONS at 2, reserved addresses read 0; a read changes nothing
and is possible at any time (R35). -/
def State.hostRead (s : State) (address : Nat) : BitVec 16 :=
  match address with
  | 0 => s.status.word
  | 1 => s.res.setWidth 16
  | 2 => s.btnPrev ++ s.btnCur
  | _ => 0

end Sys2Proof.Machine
end

