-- ==== Sys2Proof/Machine/Buttons.lean ====
section
/-! DEFINITION. The button edge queries (45_buttons.md). -/

namespace Sys2Proof.Machine

/-- Some button of the query mask is in the set (R110). -/
def anyButton (set mask : Byte) : Bool := set &&& mask != 0

/-- IS_PRESSED (R110). -/
def execIsPressed (mask : Byte) (s : State) : Host.Outcome State Fault Refusal :=
  .next { s with res := flagByte (anyButton s.btnCur mask) }

/-- IS_DOWN, the rising edge of the masked set as a whole (R111). -/
def execIsDown (mask : Byte) (s : State) : Host.Outcome State Fault Refusal :=
  .next { s with res := flagByte (anyButton s.btnCur mask && !anyButton s.btnPrev mask) }

/-- IS_UP, the falling edge of the masked set as a whole (R112). -/
def execIsUp (mask : Byte) (s : State) : Host.Outcome State Fault Refusal :=
  .next { s with res := flagByte (!anyButton s.btnCur mask && anyButton s.btnPrev mask) }

end Sys2Proof.Machine
end

