-- ==== Sys2Proof/Machine/Operands.lean ====
section
/-! DEFINITION. What the operands of a command address: a frame byte, a pixel, a clipped rectangle, a column. -/

namespace Sys2Proof.Machine

/-- The index operand of READ_TX and READ_RX names no byte of the frame (R49). -/
abbrev indexOutside (index : Byte) : Prop := 252 ≤ index.toNat

/-- `inb(x, y)`: the coordinate lies in the grid (R94). -/
def inb (c : Config) (x y : Int) : Bool :=
  decide (0 ≤ x) && decide (x < c.W) && decide (0 ≤ y) && decide (y < c.H)

/-- `fbidx(x, y) = x * (H/2) + y/2`, for a coordinate in the grid (R43). -/
def fbidx (c : Config) (x y : Int) : Nat := x.toNat * c.halfH + y.toNat / 2

/-- The pixel of row `y` is the low nibble of its byte: even rows are (R43). -/
def lowNibble (y : Int) : Bool := y.toNat % 2 == 0

/-- The integers from `lo` up to `hi - 1`, none when `hi <= lo`: a loop's range (R14, R99). -/
def intRange (lo hi : Int) : List Int := (List.range (hi - lo).toNat).map (fun i : Nat => lo + (i : Int))

/-- The columns or rows a rectangle covers after clipping to `0 .. bound-1` (R99). -/
def clipped (start extent : Int) (bound : Nat) : List Int :=
  intRange (max start 0) (min (start + extent) bound)

/-- The columns of the batch that starts at column `col`: `col .. min(col+3, W) - 1` (R101). -/
def batchColumns (c : Config) (col : Nat) : List Nat :=
  List.range' col (min (col + batchCols) c.W - col)

/-- The packed bytes of framebuffer column `col`, in address order (R43, R66). -/
def columnBytes (c : Config) (fb : Memory) (col : Nat) : List Byte :=
  fb.bytesFrom (col * c.halfH) c.halfH

end Sys2Proof.Machine
end

