-- ==== Sys2Proof/Machine/Frame.lean ====
section
/-! DEFINITION. The frame codec and packet builder (40_frame_codec.md). -/

namespace Sys2Proof.Machine

/-! The internal functions, which other families also call. -/

/-- `begin_frame()`: TX all 0, the device identifier stamped, the data window closed (R71). -/
def beginFrame (s : State) : State :=
  { s with tx := Memory.writeLE [] 4 8 s.cfg.k.deviceId.toNat, dptr := 0, drem := 0 }

/-- The write cursor, which is payload_length, `TX[2]` (R38). -/
def writeCursor (s : State) : Nat := (s.tx.read 2).toNat

/-- `append(size, svc, cmd)`: one packet header at the write cursor, the data window opened; the capacity is checked
before any write (R72). -/
def append (size svc : Byte) (cmd : BitVec 16) (s : State) : Except FaultCode State :=
  let off := writeCursor s
  let fp := footprint size.toNat
  if payloadCap < off + fp then .error .appendOverflow
  else
    .ok { s with
      tx := (((s.tx.write (frameHdr + off) size).write (frameHdr + off + 1) svc).writeLE (frameHdr + off + 2) 2
        cmd.toNat).write 2 (BitVec.ofNat 8 (off + fp))
      dptr := BitVec.ofNat 8 (off + pktHdr)
      drem := size }

/-- `put(b)`: one byte into the data window, which advances (R73). -/
def put (b : Byte) (s : State) : Except FaultCode State :=
  if s.drem = 0 then .error .dataWindow
  else .ok { s with tx := s.tx.write (frameHdr + s.dptr.toNat) b, dptr := s.dptr + 1, drem := s.drem - 1 }

/-- `put` of each byte in order. -/
def putAll : List Byte → State → Except FaultCode State
  | [], s => .ok s
  | b :: bs, s =>
    match put b s with
    | .ok t => putAll bs t
    | .error code => .error code

/-- `finalize()`: the magic sentinel stamped (R74). -/
def finalize (s : State) : State := { s with tx := s.tx.writeLE 0 2 s.cfg.k.magic.toNat }

/-- A packet record of `scan`: `(off, size, svc, cmd)` (R76). -/
structure Packet where
  /-- The payload offset of the packet header. -/
  off : Nat
  /-- service_size. -/
  size : Nat
  /-- service_number. -/
  svc : Byte
  /-- service_command. -/
  cmd : BitVec 16
  deriving DecidableEq, Repr

/-- The packets from payload offset `off` up, `bound` being payload_length capped at the capacity: a header or data
region that would cross the bound ends the scan (R76). The first argument bounds the iterations (log entry 22). -/
def scanFrom (f : Memory) (bound : Nat) : Nat → Nat → List Packet
  | 0, _ => []
  | fuel + 1, off =>
    if off + pktHdr ≤ bound then
      let size := (f.read (frameHdr + off)).toNat
      if bound < off + pktHdr + size then []
      else
        ⟨off, size, f.read (frameHdr + off + 1), BitVec.ofNat 16 (f.readLE (frameHdr + off + 2) 2)⟩
          :: scanFrom f bound fuel (off + footprint size)
    else []

/-- The bound of a scan: `min(payload_length, 240)` (R76). -/
def scanBound (f : Memory) : Nat := min (f.read 2).toNat payloadCap

/-- `scan(F)`: the packets of a frame, in order (R76). Each packet takes at least 4 of at most 240 bytes, so 60
iterations are enough. -/
def scan (f : Memory) : List Packet := scanFrom f (scanBound f) 60 0

/-- The data bytes of a scanned packet (R76). -/
def Packet.data (f : Memory) (p : Packet) : List Byte := f.bytesFrom (frameHdr + p.off + pktHdr) p.size

/-! The commands. -/

/-- BEGIN_FRAME (R79). -/
def execBeginFrame (s : State) : Host.Outcome State Fault Refusal := .next (beginFrame s)

/-- APPEND (R80). -/
def execAppend (size svc : Byte) (cmd : BitVec 16) (s : State) : Host.Outcome State Fault Refusal :=
  .next (s.finish (append size svc cmd s))

/-- PUT_DATA (R81). A window that points past TX, which no run reaches, addresses no byte of any store: that stops
the model (log entry 10). -/
def execPutData (byte : Byte) (s : State) : Host.Outcome State Fault Refusal :=
  if s.drem ≠ 0 ∧ frameSize ≤ frameHdr + s.dptr.toNat then .fault (.outsideTx (frameHdr + s.dptr.toNat))
  else .next (s.finish (put byte s))

/-- FINALIZE (R82). -/
def execFinalize (s : State) : Host.Outcome State Fault Refusal := .next (finalize s)

/-- READ_TX (R83). -/
def execReadTx (index : Byte) (s : State) : Host.Outcome State Fault Refusal :=
  .next (if indexOutside index then s.raise .indexRange else { s with res := s.tx.read index.toNat })

end Sys2Proof.Machine
end

