-- ==== Sys2Proof/Machine/Exchange.lean ====
section
/-! DEFINITION. The transport frame exchange engine (41_exchange.md). -/

namespace Sys2Proof.Machine

/-- `exchange()`: all of TX is sent and a whole frame received into RX, byte for byte in address order; RXV is
recomputed and RXD cleared; TX is sent as it stands (R84, R85). -/
def exchange (s : State) : State :=
  let sent := s.tx.bytesFrom 0 frameSize
  let rx := Memory.ofBytesFrom 0 (Env.receive sent s.env)
  { s with
    rx := rx
    env := Env.afterSend sent s.env
    status := { s.status with rxv := validFrame s.cfg rx, rxd := false } }

/-- EXCHANGE (R87). -/
def execExchange (s : State) : Host.Outcome State Fault Refusal := .next (exchange s)

/-- READ_RX (R88). -/
def execReadRx (index : Byte) (s : State) : Host.Outcome State Fault Refusal :=
  .next (if indexOutside index then s.raise .indexRange else { s with res := s.rx.read index.toNat })

/-- POLL_READY: one sample; a true one sets CONNECTED, a false one leaves it (R89). -/
def execPollReady (s : State) : Host.Outcome State Fault Refusal :=
  .next { s with
    env := s.env.afterSample
    status := { s.status with connected := s.status.connected || s.env.nextReady } }

end Sys2Proof.Machine
end

