-- ==== Sys2Proof/Machine/Framebuffer.lean ====
section
/-! DEFINITION. The indexed framebuffer (43_framebuffer.md). -/

namespace Sys2Proof.Machine

/-- `get_px(x, y)`: the 4-bit color of a pixel, 0 out of bounds (R94). -/
def getPx (c : Config) (fb : Memory) (x y : Int) : BitVec 4 :=
  if inb c x y then
    if lowNibble y then (fb.read (fbidx c x y)).extractLsb' 0 4 else (fb.read (fbidx c x y)).extractLsb' 4 4
  else 0

/-- A byte with one nibble replaced: the low one, or the high one (R95). -/
def setNibble (low : Bool) (b : Byte) (color : BitVec 4) : Byte :=
  if low then (b &&& 0xF0#8) ||| color.setWidth 8 else (b &&& 0x0F#8) ||| (color.setWidth 8 <<< 4)

/-- `set_px(x, y, c)`: one nibble written, the other kept; a no-op out of bounds (R95). -/
def setPx (c : Config) (x y : Int) (color : BitVec 4) (fb : Memory) : Memory :=
  if inb c x y then fb.write (fbidx c x y) (setNibble (lowNibble y) (fb.read (fbidx c x y)) color) else fb

/-- `set_px` at each column of one row, in increasing order: the inner loop of R99. -/
def fillRow (c : Config) (xs : List Int) (y : Int) (color : BitVec 4) (fb : Memory) : Memory :=
  xs.foldl (fun m x => setPx c x y color m) fb

/-- `set_px` over rows, outer, and columns, inner (R99). -/
def fillRows (c : Config) (xs ys : List Int) (color : BitVec 4) (fb : Memory) : Memory :=
  ys.foldl (fun m y => fillRow c xs y color m) fb

/-- CLEAR: every byte of FB gets the color in both nibbles (R96). -/
def execClear (color : BitVec 4) (s : State) : Host.Outcome State Fault Refusal :=
  .next { s with fb := Memory.ofBytesFrom 0 (List.replicate s.cfg.fbBytes (color ++ color)) }

/-- SET_PIXEL (R97). -/
def execSetPixel (x y : Int) (color : BitVec 4) (s : State) : Host.Outcome State Fault Refusal :=
  .next { s with fb := setPx s.cfg x y color s.fb }

/-- GET_PIXEL (R98). -/
def execGetPixel (x y : Int) (s : State) : Host.Outcome State Fault Refusal :=
  .next { s with res := (getPx s.cfg s.fb x y).setWidth 8 }

/-- FILL_RECT: the rectangle clipped to the grid, filled by `set_px` (R99). -/
def execFillRect (x y w h : Int) (color : BitVec 4) (s : State) : Host.Outcome State Fault Refusal :=
  .next { s with fb := fillRows s.cfg (clipped x w s.cfg.W) (clipped y h s.cfg.H) color s.fb }

end Sys2Proof.Machine
end

