-- ==== Sys2Proof/Machine/Response.lean ====
section
/-! DEFINITION. The response decoder (42_response_decoder.md). -/

namespace Sys2Proof.Machine

/-- The packet is a gamepad reading (R90). -/
def isReading (c : Config) (p : Packet) : Bool :=
  decide (p.svc = c.k.gamepadSvc) && decide (p.cmd = c.k.cmdGetReading)

/-- One pair's contribution to the mask: its index's bit, when the pressure is not 0 and the index is 1 to 7
(R90, R92). -/
def pairBit (index pressure : Byte) : Byte :=
  if pressure ≠ 0 ∧ 1 ≤ index.toNat ∧ index.toNat ≤ 7 then 1#8 <<< index.toNat else 0

/-- The mask of a reading's data: its (index, pressure) pairs ORed together; a last byte without a partner belongs to
no pair (R67, R90). -/
def maskOfPairs : List Byte → Byte
  | index :: pressure :: rest => pairBit index pressure ||| maskOfPairs rest
  | _ => 0

/-- The first gamepad reading of a frame, if it has one (R91). -/
def firstReading (c : Config) (f : Memory) : Option Packet := (scan f).find? (isReading c)

/-- `decode()`: a valid frame not yet decoded is marked decoded, and its first gamepad reading, if any, shifts the
current mask into the shadow copy and rebuilds it (R90). -/
def decodeResponse (s : State) : State :=
  if s.status.rxv && !s.status.rxd then
    let t := { s with status := { s.status with rxd := true } }
    match firstReading s.cfg s.rx with
    | some p => { t with btnPrev := s.btnCur, btnCur := maskOfPairs (p.data s.rx) }
    | none => t
  else s

/-- DECODE (R93). -/
def execDecode (s : State) : Host.Outcome State Fault Refusal := .next (decodeResponse s)

end Sys2Proof.Machine
end

