-- ==== Sys2Proof/Machine/Serializer.lean ====
section
/-! DEFINITION. The framebuffer serializer and update orchestrator (44_serializer.md). -/

namespace Sys2Proof.Machine

/-- The two bytes of a u16 descriptor field, low byte first (R65, R100). -/
def u16Bytes (v : Nat) : List Byte := [BitVec.ofNat 8 v, BitVec.ofNat 8 (v / 256)]

/-- The begin-update descriptor: x = 0, y = 0, width = W, height = H (R65). -/
def descriptor (c : Config) : List Byte := u16Bytes 0 ++ u16Bytes 0 ++ u16Bytes c.W ++ u16Bytes c.H

/-- One packet with all its data: `append` and then `put` of every data byte. -/
def appendPacket (size svc : Byte) (cmd : BitVec 16) (data : List Byte) (s : State) : Except FaultCode State :=
  match append size svc cmd s with
  | .ok t => putAll data t
  | .error code => .error code

/-- `format_begin_update()` (R100). -/
def formatBeginUpdate (s : State) : Except FaultCode State :=
  match appendPacket 8 s.cfg.k.displaySvc s.cfg.k.cmdBeginUpdate (descriptor s.cfg) (beginFrame s) with
  | .ok t => .ok (finalize t)
  | .error code => .error code

/-- The "set pixels" packet of each listed column, in order (R66, R101). -/
def appendColumns : List Nat → State → Except FaultCode State
  | [], s => .ok s
  | col :: cols, s =>
    match appendPacket (BitVec.ofNat 8 s.cfg.halfH) s.cfg.k.displaySvc s.cfg.k.cmdSetPixels
        (columnBytes s.cfg s.fb col) s with
    | .ok t => appendColumns cols t
    | .error code => .error code

/-- `format_batch(c)` (R101). -/
def formatBatch (col : Nat) (s : State) : Except FaultCode State :=
  match appendColumns (batchColumns s.cfg col) (beginFrame s) with
  | .ok t => .ok (finalize t)
  | .error code => .error code

/-- `exchange()` and then `decode()`, as both steps of a push do (R105, R106). -/
def exchangeAndDecode (s : State) : State := decodeResponse (exchange s)

/-- The start of a push with CONNECTED = 1 (R105): the begin-update frame goes out without a ready sample, and the
sequencer takes over. -/
def startPush (s : State) : Except FaultCode State :=
  match formatBeginUpdate s with
  | .ok t =>
    let u := exchangeAndDecode t
    .ok { u with seqCol := 0, seq := .wait, status := { u.status with busy := true } }
  | .error code => .error code

/-- The sequencer's position after the batch at SEQ_COL: the next batch, or the end of the push (R106). -/
def advance (s : State) : State :=
  if s.cfg.W ≤ s.seqCol.toNat + batchCols then
    { s with seq := .idle, seqCol := 0, status := { s.status with busy := false } }
  else { s with seqCol := BitVec.ofNat 12 (s.seqCol.toNat + batchCols) }

/-- One batch: format, exchange, decode, advance (R106, after a true sample). -/
def sendBatch (s : State) : Except FaultCode State :=
  match formatBatch s.seqCol.toNat s with
  | .ok t => .ok (advance (exchangeAndDecode t))
  | .error code => .error code

/-- The batch step of the push sequencer: one ready sample; a false one changes nothing, a true one lets one batch go
(R106). There is no timeout (R109). -/
def pushBatch (s : State) : State :=
  let t := { s with env := s.env.afterSample }
  if s.env.nextReady then t.finish (sendBatch t) else t

/-- FORMAT_BEGIN_UPDATE (R103). -/
def execFormatBeginUpdate (s : State) : Host.Outcome State Fault Refusal := .next (s.finish (formatBeginUpdate s))

/-- FORMAT_BATCH (R104). -/
def execFormatBatch (col : BitVec 12) (s : State) : Host.Outcome State Fault Refusal :=
  .next (if s.cfg.W ≤ col.toNat then s.raise .indexRange else s.finish (formatBatch col.toNat s))

/-- PUSH_FRAMEBUFFER, the start step, which is what the command unit runs on acceptance; the batch steps are the
sequencer's (R105, R107). Unconnected, it does nothing. -/
def execPushFramebuffer (s : State) : Host.Outcome State Fault Refusal :=
  .next (if s.status.connected then s.finish (startPush s) else s)

end Sys2Proof.Machine
end

