-- ==== Sys2Proof/Machine/Dispatch.lean ====
section
/-! DEFINITION. One arm per command: the meaning it has once the command unit has accepted it. -/

namespace Sys2Proof.Machine

/-- What an accepted command does (R18, R19). -/
def exec (i : Instr) (s : State) : Host.Outcome State Fault Refusal :=
  match i with
  | .beginFrame => Sys2Proof.Machine.execBeginFrame s
  | .append size svc cmd => Sys2Proof.Machine.execAppend size svc cmd s
  | .putData byte => Sys2Proof.Machine.execPutData byte s
  | .finalize => Sys2Proof.Machine.execFinalize s
  | .readTx index => Sys2Proof.Machine.execReadTx index s
  | .exchange => Sys2Proof.Machine.execExchange s
  | .readRx index => Sys2Proof.Machine.execReadRx index s
  | .pollReady => Sys2Proof.Machine.execPollReady s
  | .decode => Sys2Proof.Machine.execDecode s
  | .clear color => Sys2Proof.Machine.execClear color s
  | .setPixel x y color => Sys2Proof.Machine.execSetPixel x y color s
  | .getPixel x y => Sys2Proof.Machine.execGetPixel x y s
  | .fillRect x y w h color => Sys2Proof.Machine.execFillRect x y w h color s
  | .formatBeginUpdate => Sys2Proof.Machine.execFormatBeginUpdate s
  | .formatBatch col => Sys2Proof.Machine.execFormatBatch col s
  | .pushFramebuffer => Sys2Proof.Machine.execPushFramebuffer s
  | .isPressed mask => Sys2Proof.Machine.execIsPressed mask s
  | .isDown mask => Sys2Proof.Machine.execIsDown mask s
  | .isUp mask => Sys2Proof.Machine.execIsUp mask s

end Sys2Proof.Machine
end

