-- ==== Sys2Proof/Machine/Port.lean ====
section
/-! DEFINITION. The command port and the order of the block's agents within a step (10_state.md R20, R22, R23). -/

namespace Sys2Proof.Machine

/-- The command unit runs a word it has accepted: the decoded command, or ILLEGAL_COMMAND, which comes before every
other check (R60, R118). -/
def runWord (cw : Word) (s : State) : Host.Outcome State Fault Refusal :=
  match decode cw with
  | .ok i => exec i s
  | .error _ => .next (s.raise .illegalCommand)

/-- The command port: while BUSY or FAULT is 1 the next word is held; otherwise the oldest word is accepted and run.
With no word on the port the block waits (R23, R49). -/
def portStep (s : State) : Host.Outcome State Fault Refusal :=
  if s.status.busy || s.status.fault then .next s
  else
    match s.port with
    | [] => .next s
    | cw :: rest => runWord cw { s with port := rest }

/-- One step of the block: reset where its input is asserted, else the push sequencer while it waits, else the
command port (R20, R23, R106, R128). -/
def stepBlock (s : State) : Host.Outcome State Fault Refusal :=
  if s.resetIn then .next s.applyReset
  else
    match s.seq with
    | .wait => .next (pushBatch s)
    | .idle => portStep s

/-- The word goes to the head of the command port, so that it is the next one accepted (log entry 3). -/
def State.withNextWord (s : State) (cw : Word) : State := { s with port := cw :: s.port }

end Sys2Proof.Machine
end

