-- ==== Sys2Proof/Machine/Step.lean ====
section
/-! DEFINITION. The step function and the placing of a command where the next step takes it. -/

namespace Sys2Proof.Machine

/-- One step of the machine. -/
def step (s : State) : Host.Outcome State Fault Refusal := stepBlock s

/-- The state with the command word whose bits are `w` (bits at and above `nbits` are 0) next on the command port. -/
def State.withFetchWord (s : State) (nbits w : Nat) : State := s.withNextWord (BitVec.ofNat 64 (w % 2 ^ nbits))

end Sys2Proof.Machine
end

