-- ==== Sys2Proof/Safety.lean ====
section
/-! DEFINITION. The terms claims use: what a correct state is, the invariant of the block, and what an instruction leaves
unchanged. -/

namespace Sys2Proof.Machine

/-- The state can end a correct run: no fault is recorded (R117). -/
def State.ok (s : State) : Bool := !s.status.fault

/-- READY_FAIR (D20): the ready line is sampled true again and again. The premise a termination claim about the free
samples would need; no statement here assumes it, they list the samples instead. -/
def ReadyFair : Prop := ∀ n, ∃ m, n ≤ m ∧ Config.freeReady m = true

/-- The `i`-th byte the transport answers from here on (R86): the listed ones, then the free values. -/
def Env.draw (e : Env) (i : Nat) : Byte :=
  match e.transferIn[i]? with
  | some b => b
  | none => Config.freeTransfer (e.transfers + i)

/-- The number of batch exchanges from column `col` on: `ceil((W - col) / 3)` (R108). -/
def batchesFrom (c : Config) (col : Nat) : Nat := (c.W - col + 2) / 3

/-- The op values that are not in the opcode map (R60). -/
def ReservedOp (cw : Word) : Prop :=
  let op := (opOf cw).toNat
  op = 0x00 ∨ op = 0x06 ∨ op = 0x07 ∨ op = 0x0B ∨ (0x0D ≤ op ∧ op ≤ 0x0F) ∨ (0x14 ≤ op ∧ op ≤ 0x17)
    ∨ (0x1B ≤ op ∧ op ≤ 0x1F) ∨ 0x23 ≤ op

/-- The op is listed, and a bit that its format does not name is 1 (R58, R60). -/
def ReservedBitSet (cw : Word) : Prop :=
  ∃ f b, opFormat (opOf cw) = some f ∧ 8 ≤ b ∧ (formatMask f).getLsbD b = true ∧ cw.getLsbD b = true

/-- These bits are a command word, and the word is this command (R56, R58, R59). -/
def EncodesAs (bits : Nat) (i : Instr) : Prop := bits < 2 ^ 64 ∧ decode (BitVec.ofNat 64 bits) = .ok i

/-- The packets from payload offset `off` up that the loop of R76 finds below `bound`: each record is the packet at the
offset its predecessors' footprints fill, and the list ends where no whole header, or no whole data region, is left. -/
def ScannedFrom (f : Memory) (bound : Nat) : Nat → List Packet → Prop
  | off, [] => bound < off + 4 ∨ bound < off + 4 + (f.read (12 + off)).toNat
  | off, p :: ps =>
    p.off = off ∧ p.size = (f.read (12 + off)).toNat ∧ p.svc = f.read (12 + off + 1)
      ∧ p.cmd.toNat = f.readLE (12 + off + 2) 2 ∧ off + 4 + p.size ≤ bound
      ∧ ScannedFrom f bound (off + 4 + roundup4 p.size) ps

/-! ### Frames: what stays the same between two states -/

/-- Every byte of a store reads as before. -/
def SameBytes (m n : Memory) : Prop := ∀ a, n.read a = m.read a

/-- The configuration, the words waiting on the command port and the reset input are as before. -/
def KeepsInputs (s t : State) : Prop := t.cfg = s.cfg ∧ t.port = s.port ∧ t.resetIn = s.resetIn

/-- The push sequencer's position is as before. -/
def KeepsSequencer (s t : State) : Prop := t.seq = s.seq ∧ t.seqCol = s.seqCol

/-- The data window is as before. -/
def KeepsWindow (s t : State) : Prop := t.dptr = s.dptr ∧ t.drem = s.drem

/-- Both button masks are as before. -/
def KeepsButtons (s t : State) : Prop := t.btnCur = s.btnCur ∧ t.btnPrev = s.btnPrev

/-- Everything but TX and the data window is as before. -/
def KeepsAllButTx (s t : State) : Prop :=
  KeepsInputs s t ∧ KeepsSequencer s t ∧ KeepsButtons s t ∧ SameBytes s.rx t.rx ∧ SameBytes s.fb t.fb
    ∧ t.status = s.status ∧ t.res = s.res ∧ t.env = s.env

/-- Everything but FB is as before. -/
def KeepsAllButFb (s t : State) : Prop :=
  KeepsInputs s t ∧ KeepsSequencer s t ∧ KeepsWindow s t ∧ KeepsButtons s t ∧ SameBytes s.tx t.tx
    ∧ SameBytes s.rx t.rx ∧ t.status = s.status ∧ t.res = s.res ∧ t.env = s.env

/-- Everything but RES is as before. -/
def KeepsAllButRes (s t : State) : Prop :=
  KeepsInputs s t ∧ KeepsSequencer s t ∧ KeepsWindow s t ∧ KeepsButtons s t ∧ SameBytes s.tx t.tx
    ∧ SameBytes s.rx t.rx ∧ SameBytes s.fb t.fb ∧ t.status = s.status ∧ t.env = s.env

/-- Everything but STATUS is as before. -/
def KeepsAllButStatus (s t : State) : Prop :=
  KeepsInputs s t ∧ KeepsSequencer s t ∧ KeepsWindow s t ∧ KeepsButtons s t ∧ SameBytes s.tx t.tx
    ∧ SameBytes s.rx t.rx ∧ SameBytes s.fb t.fb ∧ t.res = s.res ∧ t.env = s.env

/-- The only difference is that the fault of this code is recorded (R116). -/
def OnlyFaults (code : FaultCode) (s t : State) : Prop :=
  KeepsAllButStatus s t ∧ t.status = { s.status with fault := true, fcode := code }

/-- The only difference is that the bytes of `sent` went to the peer, one answer drawn for each. -/
def OnlySends (sent : List Byte) (e f : Env) : Prop :=
  f.transferIn = e.transferIn.drop sent.length ∧ f.transfers = e.transfers + sent.length
    ∧ f.wire = e.wire ++ sent ∧ f.readyIn = e.readyIn ∧ f.samples = e.samples

/-- The only difference is that one ready sample was drawn. -/
def OnlySamples (e f : Env) : Prop :=
  f.readyIn = e.readyIn.tail ∧ f.samples = e.samples + 1 ∧ f.transferIn = e.transferIn
    ∧ f.transfers = e.transfers ∧ f.wire = e.wire

/-- Everything but RX, STATUS and what was sent is as before. -/
def KeepsAllButExchange (s t : State) : Prop :=
  KeepsInputs s t ∧ KeepsSequencer s t ∧ KeepsWindow s t ∧ KeepsButtons s t ∧ SameBytes s.tx t.tx
    ∧ SameBytes s.fb t.fb ∧ t.res = s.res

/-- Everything but STATUS and the button masks is as before. -/
def KeepsAllButDecode (s t : State) : Prop :=
  KeepsInputs s t ∧ KeepsSequencer s t ∧ KeepsWindow s t ∧ SameBytes s.tx t.tx ∧ SameBytes s.rx t.rx
    ∧ SameBytes s.fb t.fb ∧ t.res = s.res ∧ t.env = s.env

/-- Everything but STATUS and the environment is as before. -/
def KeepsAllButStatusAndEnv (s t : State) : Prop :=
  KeepsInputs s t ∧ KeepsSequencer s t ∧ KeepsWindow s t ∧ KeepsButtons s t ∧ SameBytes s.tx t.tx
    ∧ SameBytes s.rx t.rx ∧ SameBytes s.fb t.fb ∧ t.res = s.res

/-! ### Contents of a frame in TX -/

/-- The frame header that BEGIN_FRAME, one or more appends and FINALIZE leave: the magic, payload_length `n`, flags 0
and the device identifier (R61, R62). -/
def HeaderIs (s : State) (n : Nat) : Prop :=
  s.tx.readLE 0 2 = s.cfg.k.magic.toNat ∧ (s.tx.read 2).toNat = n ∧ s.tx.read 3 = 0
    ∧ s.tx.readLE 4 8 = s.cfg.k.deviceId.toNat

/-- The packet at payload offset `off` of a frame: header, data and zero padding up to its footprint (R63). -/
def PacketIs (f : Memory) (off : Nat) (svc : Byte) (cmd : BitVec 16) (data : List Byte) : Prop :=
  (f.read (frameHdr + off)).toNat = data.length ∧ f.read (frameHdr + off + 1) = svc
    ∧ f.readLE (frameHdr + off + 2) 2 = cmd.toNat
    ∧ (∀ j, j < data.length → f.read (frameHdr + off + pktHdr + j) = data.getD j 0)
    ∧ ∀ j, data.length ≤ j → j < roundup4 data.length → f.read (frameHdr + off + pktHdr + j) = 0

/-- A packet to be put into a frame: service number, service command and data bytes. -/
structure Message where
  /-- service_number. -/
  svc : Byte
  /-- service_command. -/
  cmd : BitVec 16
  /-- The data bytes; service_size is their number. -/
  data : List Byte
  deriving DecidableEq, Repr

/-- The bytes these packets occupy in a payload. -/
def totalFootprint (ms : List Message) : Nat := (ms.map (fun m => footprint m.data.length)).sum

/-- The packets stand one after the other from payload offset `off` up, each with zero padding (R63). -/
def PacketsAt (f : Memory) (off : Nat) : List Message → Prop
  | [] => True
  | m :: ms => PacketIs f off m.svc m.cmd m.data ∧ PacketsAt f (off + footprint m.data.length) ms

/-- The packets appended in order, each with all its data put (R72, R73). -/
def appendAll : List Message → State → Except FaultCode State
  | [], s => .ok s
  | m :: ms, s =>
    match appendPacket (BitVec.ofNat 8 m.data.length) m.svc m.cmd m.data s with
    | .ok t => appendAll ms t
    | .error code => .error code

/-- The records of packets packed one after the other from payload offset `off` (R78). -/
def recordsFrom (off : Nat) : List Message → List Packet
  | [] => []
  | m :: ms => ⟨off, m.data.length, m.svc, m.cmd⟩ :: recordsFrom (off + footprint m.data.length) ms

/-- The bytes 0 to 251 of a store, in address order: what an exchange sends of TX (R84). -/
def frameBytes (m : Memory) : List Byte := (List.range frameSize).map m.read

/-- The 252 bytes of the begin-update frame the block formats in this state (R100); empty if it could not. -/
def beginUpdateFrame (s : State) : List Byte :=
  match formatBeginUpdate s with
  | .ok t => frameBytes t.tx
  | .error _ => []

/-- The 252 bytes of the batch frame at a column the block formats in this state (R101); empty if it could not. -/
def batchFrame (s : State) (col : Nat) : List Byte :=
  match formatBatch col s with
  | .ok t => frameBytes t.tx
  | .error _ => []

/-! ### The invariant -/

/-- What holds of every state the block reaches (R29, R34, R36, R37, R38, R72, R83, R115, R118). -/
structure Inv (s : State) : Prop where
  txForm : Memory.wf s.tx
  txSize : Memory.within frameSize s.tx
  rxForm : Memory.wf s.rx
  rxSize : Memory.within frameSize s.rx
  fbForm : Memory.wf s.fb
  fbSize : Memory.within s.cfg.fbBytes s.fb
  /-- payload_length of TX is a multiple of 4 (R38). -/
  cursorAligned : writeCursor s % 4 = 0
  /-- payload_length of TX is at most 240 (R38). -/
  cursorFits : writeCursor s ≤ payloadCap
  /-- A payload byte at or beyond payload_length reads 0 (R83). -/
  beyondZero : ∀ p, writeCursor s ≤ p → s.tx.read (frameHdr + p) = 0
  /-- The data window lies inside the payload written so far (R72, R73). -/
  windowFits : s.dptr.toNat + s.drem.toNat ≤ writeCursor s
  /-- RXV is the validity of RX (R29). -/
  rxvValid : s.status.rxv = validFrame s.cfg s.rx
  /-- SEQ is WAIT exactly when BUSY is 1 (R37). -/
  seqBusy : s.seq = .wait ↔ s.status.busy = true
  /-- SEQ_COL is 0 outside a push (R106). -/
  seqColIdle : s.seq = .idle → s.seqCol = 0
  /-- SEQ_COL is a column of the grid during a push (R107). -/
  seqColWait : s.seq = .wait → s.seqCol.toNat < s.cfg.W
  /-- SEQ_COL steps by 3 (R108). -/
  seqColStep : s.seqCol.toNat % 3 = 0
  /-- Bit 0 of BTN_CUR is 0 (R34). -/
  curBit0 : s.btnCur.getLsbD 0 = false
  /-- Bit 0 of BTN_PREV is 0 (R34). -/
  prevBit0 : s.btnPrev.getLsbD 0 = false
  /-- FCODE is NONE exactly when FAULT is 0 (R115). -/
  faultCode : s.status.fault = false ↔ s.status.fcode = .none
  /-- Faults and a push in progress never meet (R118). -/
  pushFaultFree : s.status.busy = true → s.status.fault = false

/-- TX holds whole packets with zero padding, one after the other from payload offset 0, that fill payload_length, and an open
data window lies in the data of the last of them (R63, R72, R73). Data not yet put are bytes of the packet too. -/
def TxIsPacked (s : State) : Prop :=
  ∃ ms : List Message, PacketsAt s.tx 0 ms ∧ writeCursor s = totalFootprint ms
    ∧ (s.drem ≠ 0 → ∃ front m, ms = front ++ [m] ∧ totalFootprint front + pktHdr ≤ s.dptr.toNat
        ∧ s.dptr.toNat + s.drem.toNat ≤ totalFootprint front + pktHdr + m.data.length)

end Sys2Proof.Machine
end

