-- ==== Sys2Proof/Certificates/Slice0/Obligations.lean ====
section
/-! DEFINITION. The statements about the block for the provers. -/

open Sys2Proof Sys2Proof.Machine

/-! ### Steps, the command port, reset -/

/-- When the oldest word on the port decodes to a command and the port accepts (R23), the step is that command's meaning, on
the state with the word taken from the port. -/
def Obligations.StepRunsTheDecodedCommand : Prop :=
  ∀ (s : State) (cw : Word) (rest : List Word) (i : Instr),
    s.resetIn = false → s.seq = .idle → s.status.busy = false → s.status.fault = false → s.port = cw :: rest →
    decode cw = .ok i → step s = exec i { s with port := rest }

/-- A word with a reserved op value, or with a listed one and a nonzero reserved-zero bit, is taken from the port and records
ILLEGAL_COMMAND; it has no other effect (R60). That the accepted word is gone from the port is the model's reading (R23, log
entry 17). -/
def Obligations.IllegalWordOnlyFaults : Prop :=
  ∀ (s : State) (cw : Word) (rest : List Word),
    s.resetIn = false → s.seq = .idle → s.status.busy = false → s.status.fault = false → s.port = cw :: rest →
    ReservedOp cw ∨ ReservedBitSet cw →
    ∃ t, step s = .next t ∧ OnlyFaults .illegalCommand { s with port := rest } t

/-- The command port (R23): with BUSY = 0 and FAULT = 0 the step takes the oldest word and no other; while BUSY is 1 no word
leaves the port; with FAULT = 1 and no push in progress nothing changes at all (R117); with no word on the port the block waits
(R49). That holding and waiting are steps that answer the same state is the model's reading (log entry 4). -/
def Obligations.CommandPortAcceptsAndHolds : Prop :=
  ∀ s : State, s.resetIn = false →
    (∀ cw rest t, s.seq = .idle → s.status.busy = false → s.status.fault = false → s.port = cw :: rest →
      step s = .next t → t.port = rest)
    ∧ (s.status.busy = true ∨ s.status.fault = true → ∃ t, step s = .next t ∧ t.port = s.port)
    ∧ (s.status.fault = true → s.seq = .idle → step s = .next s)
    ∧ (s.port = [] → s.seq = .idle → step s = .next s)

/-- Reset, from every state: the reset table of R128, the push abandoned, the words not yet accepted discarded. -/
def Obligations.ResetLeavesTheResetTable : Prop :=
  ∀ s : State, s.resetIn = true →
    ∃ t, step s = .next t
      ∧ (∀ a, t.tx.read a = 0) ∧ (∀ a, t.rx.read a = 0) ∧ (∀ a, t.fb.read a = 0)
      ∧ t.status.connected = false ∧ t.status.rxv = false ∧ t.status.rxd = false ∧ t.status.busy = false
      ∧ t.status.fault = false ∧ t.status.fcode = .none ∧ t.res = 0 ∧ t.btnCur = 0 ∧ t.btnPrev = 0 ∧ t.dptr = 0
      ∧ t.drem = 0 ∧ t.seq = .idle ∧ t.seqCol = 0 ∧ t.port = [] ∧ t.cfg = s.cfg

/-- The machine of every configuration right after reset reads 0 everywhere, on the host register port too, and `State.reset`
is that machine for some configuration (R128). The inputs at reset are the model's choice (log entries 3, 5, 6, 7). -/
def Obligations.PowerOnReadsZero : Prop :=
  (∃ c, State.reset = State.resetWith c)
  ∧ ∀ c : Config,
      (State.resetWith c).cfg = c
      ∧ (∀ a, (State.resetWith c).tx.read a = 0 ∧ (State.resetWith c).rx.read a = 0 ∧ (State.resetWith c).fb.read a = 0)
      ∧ (∀ a, (State.resetWith c).hostRead a = 0)
      ∧ (State.resetWith c).dptr = 0 ∧ (State.resetWith c).drem = 0 ∧ (State.resetWith c).seq = .idle
      ∧ (State.resetWith c).seqCol = 0

/-- A configuration is refused exactly when R11 does not hold of it, and the capacity condition of R11 is `H <= 152`. That the
refusal comes when the machine is built, and from no command, is the model's choice (log entry 2). -/
def Obligations.IllFormedConfigurationRefused : Prop :=
  ∀ (W H : Nat) (k : Constants),
    (H % 2 = 0 ∧ 2 ≤ H ∧ 3 * (4 + roundup4 (H / 2)) ≤ 240 ∧ 1 ≤ W ∧ W ≤ 2047 →
      ∃ c : Config, c.W = W ∧ c.H = H ∧ c.k = k ∧ c.fbBytes = W * (H / 2) ∧ State.boot W H k = .next (State.resetWith c))
    ∧ (¬ (H % 2 = 0 ∧ 2 ≤ H ∧ 3 * (4 + roundup4 (H / 2)) ≤ 240 ∧ 1 ≤ W ∧ W ≤ 2047) →
      State.boot W H k = .refused (.illFormedConfiguration W H))
    ∧ (H % 2 = 0 → (3 * (4 + roundup4 (H / 2)) ≤ 240 ↔ H ≤ 152))

/-- The host register port: the fields of STATUS at their bits, FCODE by the code numbers of R115, every reserved bit 0, RES,
BUTTONS, and 0 at every reserved address (R27, R35). That a read is a function of the state, and no step, is the model's choice
(log entry 21). -/
def Obligations.HostPortShowsTheRegisters : Prop :=
  ∀ s : State,
    ((s.hostRead 0).getLsbD 0 = s.status.connected ∧ (s.hostRead 0).getLsbD 1 = s.status.rxv
      ∧ (s.hostRead 0).getLsbD 2 = s.status.rxd ∧ (s.hostRead 0).getLsbD 3 = s.status.busy
      ∧ (s.hostRead 0).getLsbD 7 = s.status.fault ∧ (s.hostRead 0).extractLsb' 8 4 = s.status.fcode.code
      ∧ (s.hostRead 0).extractLsb' 4 3 = 0 ∧ (s.hostRead 0).extractLsb' 12 4 = 0)
    ∧ (((s.hostRead 0).extractLsb' 8 4 = 0 ↔ s.status.fcode = .none)
      ∧ ((s.hostRead 0).extractLsb' 8 4 = 1 ↔ s.status.fcode = .illegalCommand)
      ∧ ((s.hostRead 0).extractLsb' 8 4 = 2 ↔ s.status.fcode = .appendOverflow)
      ∧ ((s.hostRead 0).extractLsb' 8 4 = 3 ↔ s.status.fcode = .dataWindow)
      ∧ ((s.hostRead 0).extractLsb' 8 4 = 4 ↔ s.status.fcode = .indexRange))
    ∧ (s.hostRead 1).toNat = s.res.toNat
    ∧ (s.hostRead 2).toNat = s.btnPrev.toNat * 256 + s.btnCur.toNat
    ∧ ∀ a, 3 ≤ a → s.hostRead a = 0

/-! ### Encoding -/

/-- Words written out from the encoding rules decode to the commands they stand for (R58, R59). -/
def Obligations.WordsOfTheSpecDecode : Prop :=
  decode 0x0000000000000001 = .ok .beginFrame
  ∧ decode 0x0000001101020502 = .ok (.append 5 0x02 0x1101)
  ∧ decode 0x000000000000A503 = .ok (.putData 0xA5)
  ∧ decode 0x000000000000FB05 = .ok (.readTx 251)
  ∧ decode 0x0000000000000008 = .ok .exchange
  ∧ decode 0x000000000000000C = .ok .decode
  ∧ decode 0x0000000F800FFF11 = .ok (.setPixel (-1) (-2048) 15)
  ∧ decode 0x07002003001FFF13 = .ok (.fillRect (-1) 1 3 2 7)
  ∧ decode 0x0000000000009F19 = .ok (.formatBatch 159)
  ∧ decode 0x000000000000FE22 = .ok (.isUp 0xFE)

/-- Decoding the encoded word of any well-formed command gives it back, with every operand. -/
def Obligations.DecodeOfEncodeIsTheCommand : Prop :=
  ∀ i : Instr, i.wf = true → decode (encode i) = .ok i

/-- Every word with a meaning is the encoding of that well-formed command: one word for each command. -/
def Obligations.EncodeOfDecodeIsTheWord : Prop :=
  ∀ (cw : Word) (i : Instr), decode cw = .ok i → i.wf = true ∧ encode i = cw

/-- A word is the named command exactly when `cw & mask = match`, with the mask of the command's format and its op value
(R59). -/
def Obligations.MaskAndMatchSelectTheCommand : Prop :=
  ∀ (cw : Word) (j : Instr),
    cw &&& formatMask j.format = BitVec.ofNat 64 j.opcode ↔ ∃ i, decode cw = .ok i ∧ i.opcode = j.opcode

/-- The decoder is total: a reserved op value, or a listed one with a nonzero reserved-zero bit, is refused by name, and every
other word is a command (R60). -/
def Obligations.ReservedEncodingsAreRefused : Prop :=
  ∀ cw : Word,
    (ReservedOp cw → decode cw = .error .reservedOp)
    ∧ (ReservedBitSet cw → decode cw = .error .reservedBits)
    ∧ (¬ ReservedOp cw → ¬ ReservedBitSet cw → ∃ i, decode cw = .ok i)

/-! ### Byte stores -/

/-- MemRead is the little-endian sum of the bytes; MemWrite writes one byte of the value at each address, low byte first, and
no other byte; a MemRead of the same field gives the value back (R16). -/
def Obligations.ByteStoresReadAndWriteFields : Prop :=
  ∀ (m : Memory) (a n v : Nat),
    m.readLE a n = ((List.range n).map (fun k => (m.read (a + k)).toNat * 256 ^ k)).sum
    ∧ (∀ k, k < n → ((m.writeLE a n v).read (a + k)).toNat = v / 256 ^ k % 256)
    ∧ (∀ j, j < a ∨ a + n ≤ j → (m.writeLE a n v).read j = m.read j)
    ∧ (m.writeLE a n v).readLE a n = v % 256 ^ n

/-! ### Frame codec and packet builder -/

/-- BEGIN_FRAME (R71, R79): TX all 0 but the device identifier, the data window closed, nothing else changed. -/
def Obligations.BeginFrameClearsAndStamps : Prop :=
  EncodesAs 0x01 .beginFrame
  ∧ ∀ s : State, ∃ t, exec .beginFrame s = .next t ∧ KeepsAllButTx s t
    ∧ t.tx.readLE 4 8 = s.cfg.k.deviceId.toNat ∧ (∀ a, a < 4 ∨ 12 ≤ a → t.tx.read a = 0)
    ∧ t.dptr = 0 ∧ t.drem = 0

/-- APPEND (R72): within the capacity, the four header bytes at the cursor and payload_length are the only bytes written, and
the window opens over the data; past it, APPEND_OVERFLOW is recorded with no other write. -/
def Obligations.AppendWritesOneHeaderOrFaults : Prop :=
  (∀ (size svc : Byte) (cmd : BitVec 16),
    EncodesAs (0x02 + size.toNat * 2 ^ 8 + svc.toNat * 2 ^ 16 + cmd.toNat * 2 ^ 24) (.append size svc cmd))
  ∧ ∀ (s : State) (size svc : Byte) (cmd : BitVec 16),
    ((s.tx.read 2).toNat + (4 + roundup4 size.toNat) ≤ 240 →
      ∃ t, exec (.append size svc cmd) s = .next t ∧ KeepsAllButTx s t
        ∧ t.tx.read (12 + (s.tx.read 2).toNat) = size ∧ t.tx.read (12 + (s.tx.read 2).toNat + 1) = svc
        ∧ t.tx.readLE (12 + (s.tx.read 2).toNat + 2) 2 = cmd.toNat
        ∧ (t.tx.read 2).toNat = (s.tx.read 2).toNat + (4 + roundup4 size.toNat)
        ∧ t.dptr.toNat = (s.tx.read 2).toNat + 4 ∧ t.drem = size
        ∧ (t.tx.read 2).toNat ≤ 240 ∧ t.dptr.toNat + t.drem.toNat ≤ 240
        ∧ ∀ a, a ≠ 2 → a < 12 + (s.tx.read 2).toNat ∨ 12 + (s.tx.read 2).toNat + 4 ≤ a → t.tx.read a = s.tx.read a)
    ∧ (240 < (s.tx.read 2).toNat + (4 + roundup4 size.toNat) →
      ∃ t, exec (.append size svc cmd) s = .next t ∧ OnlyFaults .appendOverflow s t)

/-- PUT_DATA (R73), where the window lies in the payload, as it does in every state a run reaches: with an open window one byte
is written at `TX[12 + DPTR]`, inside the frame, and the window moves one byte on; with a closed one DATA_WINDOW is recorded
with no other write. -/
def Obligations.PutDataWritesOneByteOrFaults : Prop :=
  (∀ b : Byte, EncodesAs (0x03 + b.toNat * 2 ^ 8) (.putData b))
  ∧ ∀ (s : State) (b : Byte), s.dptr.toNat + s.drem.toNat ≤ 240 →
    (s.drem ≠ 0 →
      ∃ t, exec (.putData b) s = .next t ∧ KeepsAllButTx s t ∧ 12 + s.dptr.toNat ≤ 251
        ∧ t.tx.read (12 + s.dptr.toNat) = b ∧ (∀ a, a ≠ 12 + s.dptr.toNat → t.tx.read a = s.tx.read a)
        ∧ t.dptr.toNat = s.dptr.toNat + 1 ∧ t.drem.toNat + 1 = s.drem.toNat)
    ∧ (s.drem = 0 → ∃ t, exec (.putData b) s = .next t ∧ OnlyFaults .dataWindow s t)

/-- In states no run reaches, whose data window points past TX, PUT_DATA addresses a byte that does not exist (R40), and the
model stops by name. The model's own choice (log entry 10). -/
def Obligations.PutDataPastTxStops : Prop :=
  ∀ (s : State) (b : Byte), s.drem ≠ 0 → 252 ≤ 12 + s.dptr.toNat →
    exec (.putData b) s = .fault (.outsideTx (12 + s.dptr.toNat))

/-- FINALIZE (R74, R82): the magic little-endian at 0, nothing else written, the window kept. -/
def Obligations.FinalizeStampsTheMagic : Prop :=
  EncodesAs 0x04 .finalize
  ∧ ∀ s : State, ∃ t, exec .finalize s = .next t ∧ KeepsAllButTx s t ∧ KeepsWindow s t
    ∧ (t.tx.read 0).toNat = s.cfg.k.magic.toNat % 256 ∧ (t.tx.read 1).toNat = s.cfg.k.magic.toNat / 256
    ∧ ∀ a, 2 ≤ a → t.tx.read a = s.tx.read a

/-- READ_TX (R83): RES gets the byte and nothing else changes; an index of 252 to 255 records INDEX_RANGE with no other write;
a payload byte at or beyond payload_length reads 0 in every state that meets the invariant. -/
def Obligations.ReadTxGivesTheByteOrFaults : Prop :=
  (∀ index : Byte, EncodesAs (0x05 + index.toNat * 2 ^ 8) (.readTx index))
  ∧ ∀ (s : State) (index : Byte),
    (index.toNat < 252 →
      ∃ t, exec (.readTx index) s = .next t ∧ KeepsAllButRes s t ∧ t.res = s.tx.read index.toNat
        ∧ (Inv s → 12 + (s.tx.read 2).toNat ≤ index.toNat → t.res = 0))
    ∧ (252 ≤ index.toNat → ∃ t, exec (.readTx index) s = .next t ∧ OnlyFaults .indexRange s t)

/-- Packing and scanning are inverse (R78): packets appended after BEGIN_FRAME, each with all its data put, within the
capacity, are built without a fault; each stands in TX at the offset the footprints before it fill, whole, with padding 0 (R63);
and the scan of TX gives their records in append order at these offsets, with their data. -/
def Obligations.ScanOfPackedFrameGivesThePackets : Prop :=
  ∀ (s : State) (ms : List Message), totalFootprint ms ≤ 240 →
    ∃ t, appendAll ms (beginFrame s) = .ok t
      ∧ (t.tx.read 2).toNat = totalFootprint ms
      ∧ PacketsAt t.tx 0 ms
      ∧ scan t.tx = recordsFrom 0 ms
      ∧ (scan t.tx).map (Packet.data t.tx) = ms.map Message.data

/-- A scan interprets no byte at or beyond payload_length, capped at the capacity: frames alike below it have the same
packets with the same data (R76). -/
def Obligations.ScanIgnoresBytesBeyondPayloadLength : Prop :=
  ∀ f g : Memory, g.read 2 = f.read 2 →
    (∀ a, 12 ≤ a → a < 12 + min (f.read 2).toNat 240 → g.read a = f.read a) →
    scan g = scan f ∧ ∀ p ∈ scan f, p.data g = p.data f

/-- `scan(F)` is what the loop of R76 finds, from payload offset 0, below payload_length capped at 240. -/
def Obligations.ScanFollowsTheLoop : Prop :=
  ∀ f : Memory, ScannedFrom f (min (f.read 2).toNat 240) 0 (scan f)

/-! ### Exchange, polling, decoding -/

/-- EXCHANGE (R84, R87): the 252 bytes of TX go out in order, the 252 bytes drawn come into RX in order, RXV is recomputed,
RXD cleared, nothing else changed. -/
def Obligations.ExchangeMovesOneFrameEachWay : Prop :=
  EncodesAs 0x08 .exchange
  ∧ ∀ s : State, ∃ t, exec .exchange s = .next t ∧ KeepsAllButExchange s t
    ∧ OnlySends (frameBytes s.tx) s.env t.env
    ∧ (∀ i, i < 252 → t.rx.read i = s.env.draw i) ∧ (∀ i, 252 ≤ i → t.rx.read i = 0)
    ∧ t.status = { s.status with
        rxv := decide (t.rx.readLE 0 2 = s.cfg.k.magic.toNat ∧ t.rx.read 2 ≠ 0), rxd := false }

/-- READ_RX (R88): RES gets the byte, valid frame or not, and nothing else changes; an index of 252 to 255 records INDEX_RANGE
with no other write. -/
def Obligations.ReadRxGivesTheByteOrFaults : Prop :=
  (∀ index : Byte, EncodesAs (0x09 + index.toNat * 2 ^ 8) (.readRx index))
  ∧ ∀ (s : State) (index : Byte),
    (index.toNat < 252 →
      ∃ t, exec (.readRx index) s = .next t ∧ KeepsAllButRes s t ∧ t.res = s.rx.read index.toNat)
    ∧ (252 ≤ index.toNat → ∃ t, exec (.readRx index) s = .next t ∧ OnlyFaults .indexRange s t)

/-- POLL_READY (R89): one sample drawn; CONNECTED set by a true one, kept otherwise; nothing else changed. -/
def Obligations.PollReadySetsConnected : Prop :=
  EncodesAs 0x0A .pollReady
  ∧ ∀ s : State, ∃ t, exec .pollReady s = .next t ∧ KeepsAllButStatusAndEnv s t ∧ OnlySamples s.env t.env
    ∧ t.status = { s.status with connected := s.status.connected || s.env.nextReady }

/-- DECODE (R90, R91, R92): of no valid frame, or of one already decoded, it does nothing; of a fresh valid frame without a
gamepad reading it sets RXD alone; of one whose first gamepad reading is `p`, the current mask moves to BTN_PREV, and bit `i` of
BTN_CUR is 1 exactly when `i` is 1 to 7 and some pair has index `i` and nonzero pressure. -/
def Obligations.DecodeRebuildsTheMasksOnce : Prop :=
  EncodesAs 0x0C .decode
  ∧ ∀ s : State,
    (s.status.rxv = false ∨ s.status.rxd = true → exec .decode s = .next s)
    ∧ (s.status.rxv = true → s.status.rxd = false →
        (∀ q ∈ scan s.rx, ¬ (q.svc = s.cfg.k.gamepadSvc ∧ q.cmd = s.cfg.k.cmdGetReading)) →
        ∃ t, exec .decode s = .next t ∧ KeepsAllButDecode s t ∧ KeepsButtons s t
          ∧ t.status = { s.status with rxd := true })
    ∧ ∀ (before after : List Packet) (p : Packet),
        s.status.rxv = true → s.status.rxd = false → scan s.rx = before ++ p :: after →
        (∀ q ∈ before, ¬ (q.svc = s.cfg.k.gamepadSvc ∧ q.cmd = s.cfg.k.cmdGetReading)) →
        p.svc = s.cfg.k.gamepadSvc → p.cmd = s.cfg.k.cmdGetReading →
        ∃ t, exec .decode s = .next t ∧ KeepsAllButDecode s t ∧ t.status = { s.status with rxd := true }
          ∧ t.btnPrev = s.btnCur
          ∧ ∀ i, t.btnCur.getLsbD i = true ↔
              1 ≤ i ∧ i ≤ 7 ∧ ∃ k, k < p.size / 2 ∧ (s.rx.read (12 + p.off + 4 + 2 * k)).toNat = i
                ∧ s.rx.read (12 + p.off + 4 + 2 * k + 1) ≠ 0

/-! ### Framebuffer -/

/-- CLEAR (R96): every byte of FB is `color | (color << 4)`, every pixel of the grid reads the color, nothing else changes. -/
def Obligations.ClearFillsEveryPixel : Prop :=
  (∀ color : BitVec 4, EncodesAs (0x10 + color.toNat * 2 ^ 8) (.clear color))
  ∧ ∀ (s : State) (color : BitVec 4), ∃ t, exec (.clear color) s = .next t ∧ KeepsAllButFb s t
    ∧ (∀ a, a < s.cfg.W * (s.cfg.H / 2) → t.fb.read a = color.setWidth 8 ||| (color.setWidth 8 <<< 4))
    ∧ (∀ a, s.cfg.W * (s.cfg.H / 2) ≤ a → t.fb.read a = 0)
    ∧ ∀ x y : Int, 0 ≤ x ∧ x < s.cfg.W ∧ 0 ≤ y ∧ y < s.cfg.H → getPx s.cfg t.fb x y = color

/-- SET_PIXEL (R95, R97): in the grid, the pixel's nibble gets the color, the byte's other nibble and every other byte are kept,
so every other pixel reads as before; outside it, nothing is written. -/
def Obligations.SetPixelWritesOneNibble : Prop :=
  (∀ (x y : BitVec 12) (color : BitVec 4),
    EncodesAs (0x11 + x.toNat * 2 ^ 8 + y.toNat * 2 ^ 20 + color.toNat * 2 ^ 32) (.setPixel x.toInt y.toInt color))
  ∧ ∀ (s : State) (x y : Int) (color : BitVec 4), ∃ t, exec (.setPixel x y color) s = .next t ∧ KeepsAllButFb s t
    ∧ (inb s.cfg x y = true →
        t.fb.read (fbidx s.cfg x y)
            = (if y % 2 = 0 then (s.fb.read (fbidx s.cfg x y) &&& 0xF0#8) ||| color.setWidth 8
               else (s.fb.read (fbidx s.cfg x y) &&& 0x0F#8) ||| (color.setWidth 8 <<< 4))
        ∧ (∀ a, a ≠ fbidx s.cfg x y → t.fb.read a = s.fb.read a)
        ∧ getPx s.cfg t.fb x y = color)
    ∧ (inb s.cfg x y = false → SameBytes s.fb t.fb)
    ∧ ∀ x' y' : Int, ¬ (x' = x ∧ y' = y) → getPx s.cfg t.fb x' y' = getPx s.cfg s.fb x' y'

/-- GET_PIXEL (R94, R98): RES is the low nibble of the pixel's byte on an even row, the high one on an odd row, and 0 outside
the grid; nothing else changes. -/
def Obligations.GetPixelReadsTheNibble : Prop :=
  (∀ x y : BitVec 12, EncodesAs (0x12 + x.toNat * 2 ^ 8 + y.toNat * 2 ^ 20) (.getPixel x.toInt y.toInt))
  ∧ ∀ (s : State) (x y : Int), ∃ t, exec (.getPixel x y) s = .next t ∧ KeepsAllButRes s t
    ∧ t.res =
        if 0 ≤ x ∧ x < s.cfg.W ∧ 0 ≤ y ∧ y < s.cfg.H then
          (if y % 2 = 0 then s.fb.read (x.toNat * (s.cfg.H / 2) + y.toNat / 2) &&& 0x0F#8
           else s.fb.read (x.toNat * (s.cfg.H / 2) + y.toNat / 2) >>> 4)
        else 0

/-- FILL_RECT (R99): exactly the pixels of the grid inside the rectangle get the color, every other pixel and every byte that
holds none of them is as before. -/
def Obligations.FillRectFillsTheClippedRectangle : Prop :=
  (∀ (x y w h : BitVec 12) (color : BitVec 4),
    EncodesAs (0x13 + x.toNat * 2 ^ 8 + y.toNat * 2 ^ 20 + w.toNat * 2 ^ 32 + h.toNat * 2 ^ 44 + color.toNat * 2 ^ 56)
      (.fillRect x.toInt y.toInt w.toInt h.toInt color))
  ∧ ∀ (s : State) (x y w h : Int) (color : BitVec 4), ∃ t, exec (.fillRect x y w h color) s = .next t ∧ KeepsAllButFb s t
    ∧ (∀ x' y' : Int, getPx s.cfg t.fb x' y'
        = if inb s.cfg x' y' = true ∧ x ≤ x' ∧ x' < x + w ∧ y ≤ y' ∧ y' < y + h then color
          else getPx s.cfg s.fb x' y')
    ∧ ∀ a, (∀ x' y' : Int, inb s.cfg x' y' = true → x ≤ x' ∧ x' < x + w ∧ y ≤ y' ∧ y' < y + h → a ≠ fbidx s.cfg x' y') →
        t.fb.read a = s.fb.read a

/-! ### Serializer and push -/

/-- FORMAT_BEGIN_UPDATE (R100, R103): the begin-update frame, whole, and the window behind its data. -/
def Obligations.FormatBeginUpdateBuildsTheFrame : Prop :=
  EncodesAs 0x18 .formatBeginUpdate
  ∧ ∀ s : State, ∃ t, exec .formatBeginUpdate s = .next t ∧ KeepsAllButTx s t ∧ HeaderIs t 12
    ∧ PacketIs t.tx 0 s.cfg.k.displaySvc s.cfg.k.cmdBeginUpdate
        [0, 0, 0, 0, BitVec.ofNat 8 s.cfg.W, BitVec.ofNat 8 (s.cfg.W / 256), BitVec.ofNat 8 s.cfg.H,
          BitVec.ofNat 8 (s.cfg.H / 256)]
    ∧ (∀ p, 12 ≤ p → t.tx.read (12 + p) = 0) ∧ t.dptr = 12 ∧ t.drem = 0

/-- FORMAT_BATCH (R101, R104): of a column of the grid, one "set pixels" packet for each of the `n` columns, with that column's
packed bytes (R66), nothing behind them, and the window closed behind the last; of a column outside it, INDEX_RANGE is recorded
with no other write. -/
def Obligations.FormatBatchBuildsTheFrameOrFaults : Prop :=
  (∀ col : BitVec 12, EncodesAs (0x19 + col.toNat * 2 ^ 8) (.formatBatch col))
  ∧ ∀ (s : State) (col : BitVec 12),
    (col.toNat < s.cfg.W →
      ∃ t, exec (.formatBatch col) s = .next t ∧ KeepsAllButTx s t
        ∧ HeaderIs t ((min (col.toNat + 3) s.cfg.W - col.toNat) * (4 + roundup4 (s.cfg.H / 2)))
        ∧ (∀ m, m < min (col.toNat + 3) s.cfg.W - col.toNat →
            PacketIs t.tx (m * (4 + roundup4 (s.cfg.H / 2))) s.cfg.k.displaySvc s.cfg.k.cmdSetPixels
              ((List.range (s.cfg.H / 2)).map (fun j => s.fb.read ((col.toNat + m) * (s.cfg.H / 2) + j))))
        ∧ (∀ p, (min (col.toNat + 3) s.cfg.W - col.toNat) * (4 + roundup4 (s.cfg.H / 2)) ≤ p → t.tx.read (12 + p) = 0)
        ∧ t.drem = 0
        ∧ t.dptr.toNat
            = (min (col.toNat + 3) s.cfg.W - col.toNat - 1) * (4 + roundup4 (s.cfg.H / 2)) + 4 + s.cfg.H / 2)
    ∧ (s.cfg.W ≤ col.toNat → ∃ t, exec (.formatBatch col) s = .next t ∧ OnlyFaults .indexRange s t)

/-- No capacity or window fault arises inside the serializer, in any state (R102). For a batch step with SEQ_COL at or beyond W,
which no run reaches, this rests on the model's choice (log entry 14). -/
def Obligations.SerializerNeverFaults : Prop :=
  ∀ s : State,
    (∃ t, formatBeginUpdate s = .ok t) ∧ (∀ col, col < s.cfg.W → ∃ t, formatBatch col s = .ok t)
    ∧ (∃ t, startPush s = .ok t) ∧ ∃ t, sendBatch s = .ok t

/-- PUSH_FRAMEBUFFER, the start step (R105): with CONNECTED = 0 nothing changes at all; with CONNECTED = 1 it is
FORMAT_BEGIN_UPDATE, EXCHANGE and DECODE, in this order, and then the sequencer waits before column 0 with BUSY = 1. -/
def Obligations.PushStartsOrIsSkipped : Prop :=
  EncodesAs 0x1A .pushFramebuffer
  ∧ ∀ s : State,
    (s.status.connected = false → exec .pushFramebuffer s = .next s)
    ∧ (s.status.connected = true →
        ∃ u v w, exec .formatBeginUpdate s = .next u ∧ exec .exchange u = .next v ∧ exec .decode v = .next w
          ∧ exec .pushFramebuffer s
              = .next { w with seqCol := 0, seq := .wait, status := { w.status with busy := true } })

/-- The batch step (R106): on a false sample nothing but the sample is drawn; on a true one the batch at SEQ_COL is formatted,
exchanged and decoded, and the sequencer moves on by three columns, or ends the push past the last. -/
def Obligations.BatchStepWaitsOrSends : Prop :=
  ∀ s : State, s.resetIn = false → s.seq = .wait → s.seqCol.toNat < s.cfg.W →
    (s.env.nextReady = false →
      ∃ t, step s = .next t ∧ KeepsAllButStatusAndEnv s t ∧ t.status = s.status ∧ OnlySamples s.env t.env)
    ∧ (s.env.nextReady = true →
      ∃ u v w, exec (.formatBatch s.seqCol) { s with env := s.env.afterSample } = .next u ∧ exec .exchange u = .next v
        ∧ exec .decode v = .next w
        ∧ step s = .next (if s.cfg.W ≤ s.seqCol.toNat + 3 then
              { w with seq := .idle, seqCol := 0, status := { w.status with busy := false } }
            else { w with seqCol := BitVec.ofNat 12 (s.seqCol.toNat + 3) }))

/-- The stall (R109): however many false samples come, the push holds, with nothing sent and nothing changed but the samples
drawn. -/
def Obligations.PushStallsWhileNotReady : Prop :=
  ∀ (k : Nat) (s : State) (r : List Bool), s.resetIn = false → s.seq = .wait →
    s.env.readyIn = List.replicate k false ++ r →
    ∃ t, Host.Core.run Sys2Proof.core k s = .next t ∧ KeepsAllButStatusAndEnv s t ∧ t.status = s.status
      ∧ t.env.readyIn = r ∧ t.env.samples = s.env.samples + k ∧ t.env.wire = s.env.wire
      ∧ t.env.transfers = s.env.transfers ∧ t.env.transferIn = s.env.transferIn

/-- A push with CONNECTED = 1 that completes (R108): whatever false samples stand between, at its `ceil(W/3)`-th true sample it
ends, with `1 + ceil(W/3)` exchanges, whose frames are the begin-update frame and then the batches at columns 0, 3, 6, ... of
the image at acceptance (R136); `W - 3 * (ceil(W/3) - 1)`, the columns left for the last of them, is 1, 2 or 3. -/
def Obligations.PushSendsEveryBatchOnce : Prop :=
  ∀ (s : State) (l r : List Bool), s.status.connected = true → s.resetIn = false → s.env.readyIn = l ++ r →
    l.count true = batchesFrom s.cfg 0 → l.getLast? = some true →
    ∃ t u, exec .pushFramebuffer s = .next t ∧ Host.Core.run Sys2Proof.core l.length t = .next u
      ∧ u.seq = .idle ∧ u.seqCol = 0 ∧ u.status.busy = false ∧ u.status.fault = s.status.fault
      ∧ u.port = s.port ∧ SameBytes s.fb u.fb
      ∧ u.env.transfers = s.env.transfers + 252 * (1 + batchesFrom s.cfg 0)
      ∧ u.env.samples = s.env.samples + l.length ∧ u.env.readyIn = r
      ∧ u.env.wire = s.env.wire ++ beginUpdateFrame s
          ++ ((List.range (batchesFrom s.cfg 0)).map (fun k => batchFrame s (3 * k))).flatten
      ∧ 1 ≤ s.cfg.W - 3 * (batchesFrom s.cfg 0 - 1) ∧ s.cfg.W - 3 * (batchesFrom s.cfg 0 - 1) ≤ 3

/-- A push in progress ends once enough of the samples that come are true, however many false ones stand between them
(R106, R108, R109). -/
def Obligations.PushEndsAfterEnoughReadySamples : Prop :=
  ∀ s : State, s.resetIn = false → s.seq = .wait → s.seqCol.toNat < s.cfg.W →
    batchesFrom s.cfg s.seqCol.toNat ≤ s.env.readyIn.count true →
    ∃ k t, k ≤ s.env.readyIn.length ∧ Host.Core.run Sys2Proof.core k s = .next t ∧ t.seq = .idle
      ∧ t.status.busy = false ∧ t.env.transfers = s.env.transfers + 252 * batchesFrom s.cfg s.seqCol.toNat

/-! ### Buttons -/

/-- IS_PRESSED, IS_DOWN and IS_UP (R110, R111, R112): RES is 1 or 0 by the formula, nothing else changes; each of them with mask
bit 0 only answers 0 in every state that meets the invariant. -/
def Obligations.ButtonQueriesAnswerTheFormulas : Prop :=
  (∀ mask : Byte, EncodesAs (0x20 + mask.toNat * 2 ^ 8) (.isPressed mask)
    ∧ EncodesAs (0x21 + mask.toNat * 2 ^ 8) (.isDown mask) ∧ EncodesAs (0x22 + mask.toNat * 2 ^ 8) (.isUp mask))
  ∧ ∀ (s : State) (mask : Byte),
    (∃ t, exec (.isPressed mask) s = .next t ∧ KeepsAllButRes s t
      ∧ (t.res = if s.btnCur &&& mask ≠ 0 then 1 else 0) ∧ (Inv s → mask = 1 → t.res = 0))
    ∧ (∃ t, exec (.isDown mask) s = .next t ∧ KeepsAllButRes s t
      ∧ (t.res = if s.btnCur &&& mask ≠ 0 ∧ s.btnPrev &&& mask = 0 then 1 else 0) ∧ (Inv s → mask = 1 → t.res = 0))
    ∧ ∃ t, exec (.isUp mask) s = .next t ∧ KeepsAllButRes s t
      ∧ (t.res = if s.btnCur &&& mask = 0 ∧ s.btnPrev &&& mask ≠ 0 then 1 else 0) ∧ (Inv s → mask = 1 → t.res = 0)

/-- For one mask IS_DOWN and IS_UP are never both 1, with equal masks both are 0, and IS_PRESSED of bit 0 alone answers 0 wherever
bit 0 of BTN_CUR is 0 (R110, R112). -/
def Obligations.EdgesExcludeEachOther : Prop :=
  ∀ (s t u v : State) (mask : Byte),
    exec (.isDown mask) s = .next t → exec (.isUp mask) s = .next u → exec (.isPressed 1) s = .next v →
    ¬ (t.res = 1 ∧ u.res = 1) ∧ (s.btnCur = s.btnPrev → t.res = 0 ∧ u.res = 0)
    ∧ (s.btnCur.getLsbD 0 = false → v.res = 0)

/-- BUTTON_MASK (R13): the seven names have seven different masks, and these are the single bits 1 to 7. -/
def Obligations.ButtonMasksAreTheSevenBits : Prop :=
  (∀ n m : Fin 7, buttonMask n = buttonMask m → n = m)
  ∧ ∀ b : Byte, (∃ n, buttonMask n = b) ↔ ∃ i, 1 ≤ i ∧ i ≤ 7 ∧ b = BitVec.ofNat 8 (2 ^ i)

/-! ### The whole machine -/

/-- The invariant holds after reset, in every configuration. -/
def Obligations.InvariantHoldsAtReset : Prop :=
  Inv State.reset ∧ ∀ c : Config, Inv (State.resetWith c)

/-- Every step keeps the invariant: stores canonical and in their sizes, payload_length a multiple of 4 and at most 240, 0 beyond
it, the window inside it, RXV the validity of RX, WAIT exactly when BUSY, bit 0 of both masks 0, FCODE NONE exactly when FAULT
is 0 (R29, R34, R37, R38, R72, R83). -/
def Obligations.EveryStepKeepsTheInvariant : Prop :=
  ∀ s t : State, Inv s → step s = .next t → Inv t

/-- In a state that meets the invariant, whatever is on the port, a step answers a next state: the model neither faults nor
refuses. This is how the model reads the outcomes of R18: a recorded fault is a next state (log entry 9), a held or idle port
answers the same state (log entry 4), and a configuration is refused before any command (log entry 2). -/
def Obligations.NoStepStopsTheMachine : Prop :=
  ∀ s : State, Inv s → ∃ t, step s = .next t

/-- Faults are precise (R115, R116): a command that records a fault changes nothing else, and each code is raised by its own
commands only. -/
def Obligations.FaultsArePrecise : Prop :=
  ∀ (i : Instr) (s t : State), exec i s = .next t → s.status.fault = false → t.status.fault = true →
    ∃ code, t = { s with status := { s.status with fault := true, fcode := code } }
      ∧ ((code = .appendOverflow ∧ ∃ size svc cmd, i = .append size svc cmd)
        ∨ (code = .dataWindow ∧ ∃ b, i = .putData b)
        ∨ (code = .indexRange ∧ ((∃ x, i = .readTx x) ∨ (∃ x, i = .readRx x) ∨ ∃ c, i = .formatBatch c)))

/-- CONNECTED (R28): 0 after reset; no command but POLL_READY on a true sample sets it; outside reset no step clears it, and
reset does; the push's samples never write it. -/
def Obligations.ConnectedIsSetByPollAlone : Prop :=
  (∀ c : Config, (State.resetWith c).status.connected = false)
  ∧ (∀ (i : Instr) (s t : State), exec i s = .next t →
      t.status.connected = s.status.connected
        ∨ (i = .pollReady ∧ s.env.nextReady = true ∧ t.status.connected = true))
  ∧ (∀ s t : State, step s = .next t →
      (s.resetIn = false → s.status.connected = true → t.status.connected = true)
      ∧ (s.resetIn = true → t.status.connected = false)
      ∧ (s.resetIn = false → s.seq = .wait → t.status.connected = s.status.connected))

/-- Only DECODE, and a push by its decodes, writes the button masks (R34). -/
def Obligations.MasksChangeOnlyByDecoding : Prop :=
  ∀ (i : Instr) (s t : State), exec i s = .next t → i ≠ .decode → i ≠ .pushFramebuffer → KeepsButtons s t

/-- Only an exchange touches the transport or RX: no other command draws or sends a byte (R42, R85). -/
def Obligations.TransportIsTouchedOnlyByExchange : Prop :=
  ∀ (i : Instr) (s t : State), exec i s = .next t → i ≠ .exchange → i ≠ .pushFramebuffer →
    t.env.transfers = s.env.transfers ∧ t.env.wire = s.env.wire ∧ t.env.transferIn = s.env.transferIn ∧ SameBytes s.rx t.rx

/-- FB is written by CLEAR, SET_PIXEL and FILL_RECT alone, and no step of a push in progress writes it (R26, R136). -/
def Obligations.FramebufferChangesOnlyByDrawing : Prop :=
  (∀ (i : Instr) (s t : State), exec i s = .next t → (∀ c, i ≠ .clear c) → (∀ x y c, i ≠ .setPixel x y c) →
    (∀ x y w h c, i ≠ .fillRect x y w h c) → SameBytes s.fb t.fb)
  ∧ ∀ s t : State, step s = .next t → s.resetIn = false → s.seq = .wait → SameBytes s.fb t.fb

/-- RES is written by GET_PIXEL, READ_TX, READ_RX and the three queries alone (R33). -/
def Obligations.ResultChangesOnlyByReads : Prop :=
  ∀ (i : Instr) (s t : State), exec i s = .next t → (∀ x y, i ≠ .getPixel x y) → (∀ x, i ≠ .readTx x) → (∀ x, i ≠ .readRx x) →
    (∀ m, i ≠ .isPressed m) → (∀ m, i ≠ .isDown m) → (∀ m, i ≠ .isUp m) → t.res = s.res

/-- No step changes the configuration (R39). -/
def Obligations.ConfigurationNeverChanges : Prop :=
  ∀ s t : State, step s = .next t → t.cfg = s.cfg

/-- The TX of a machine right after reset, empty, is packed. -/
def Obligations.TxIsPackedAtReset : Prop :=
  TxIsPacked State.reset ∧ ∀ c : Config, TxIsPacked (State.resetWith c)

/-- Whatever commands build it, the frame in TX stays a run of whole packets with zero padding that fills payload_length (R63). -/
def Obligations.EveryStepKeepsTxPacked : Prop :=
  ∀ s t : State, Inv s → TxIsPacked s → step s = .next t → TxIsPacked t

/-- In a packed frame every packet the scan finds stands at a multiple of 4 and its padding is 0, and the packets fill
payload_length (R46, R63). -/
def Obligations.ScannedPacketsOfTxAreAlignedAndPadded : Prop :=
  ∀ s : State, Inv s → TxIsPacked s →
    ((scan s.tx).map (fun p => 4 + roundup4 p.size)).sum = (s.tx.read 2).toNat
    ∧ ∀ p ∈ scan s.tx, p.off % 4 = 0
        ∧ ∀ j, p.size ≤ j → j < roundup4 p.size → s.tx.read (12 + p.off + 4 + j) = 0
end

