-- ==== Sys2Proof/Laws/Decode.lean ====
section
/-! SUPPORT. The command word as a number: its fields, its op and its reserved-zero bits. -/

namespace Sys2Proof

/-- The number of low bits of a word that a format uses; every bit above is reserved-zero (R58). -/
def formatWidth : Format → Nat
  | .N => 8
  | .A => 40
  | .B => 16
  | .I => 16
  | .C => 12
  | .P => 36
  | .G => 32
  | .R => 60
  | .K => 20
  | .Q => 16

theorem toNat_opOf (cw : Word) : (opOf cw).toNat = cw.toNat % 256 := by
  simp [opOf]

theorem toNat_field (cw : Word) (lo len : Nat) : (cw.extractLsb' lo len).toNat = cw.toNat / 2 ^ lo % 2 ^ len := by
  simp [Nat.shiftRight_eq_div_pow]

theorem formatMask_getLsbD (f : Format) (i : Nat) (h : i < 64) :
    (formatMask f).getLsbD i = (decide (i < 8) || decide (formatWidth f ≤ i)) := by
  have key : ∀ f : Format, ∀ i : Fin 64,
      (formatMask f).getLsbD i = (decide (i.val < 8) || decide (formatWidth f ≤ i.val)) := by
    intro f
    cases f <;> decide
  exact key f ⟨i, h⟩

theorem formatWidth_le (f : Format) : formatWidth f ≤ 64 := by cases f <;> decide

theorem Instr.opcode_lt (i : Instr) : i.opcode < 256 := by cases i <;> simp only [Instr.opcode] <;> omega

theorem formatWidth_ge (f : Format) : 8 ≤ formatWidth f := by cases f <;> decide

/-- The mask test of R59 for a word's own op: every bit at or above the format's width is 0. -/
theorem mask_test_iff (cw : Word) (f : Format) :
    cw &&& formatMask f = (opOf cw).setWidth 64 ↔ cw.toNat < 2 ^ formatWidth f := by
  have hw := formatWidth_ge f
  constructor
  · intro h
    apply Nat.lt_pow_two_of_testBit
    intro i hi
    by_cases h64 : i < 64
    · have := congrArg (fun w => BitVec.getLsbD w i) h
      simp only [BitVec.getLsbD_and, formatMask_getLsbD f i h64, BitVec.getLsbD_setWidth, opOf,
        BitVec.getLsbD_extractLsb', hi, decide_true, Bool.or_true, Bool.and_true] at this
      rw [show decide (i < 8) = false by simp; omega] at this
      simpa [BitVec.testBit_toNat] using this
    · rw [BitVec.testBit_toNat]
      exact BitVec.getLsbD_of_ge _ _ (by omega)
  · intro h
    apply BitVec.eq_of_getLsbD_eq
    intro i h64
    simp only [BitVec.getLsbD_and, formatMask_getLsbD f i h64, BitVec.getLsbD_setWidth, opOf,
      BitVec.getLsbD_extractLsb', Nat.zero_add, h64, decide_true, Bool.true_and]
    by_cases h8 : i < 8
    · simp [h8]
    · by_cases hwi : formatWidth f ≤ i
      · have : cw.getLsbD i = false := by
          rw [← BitVec.testBit_toNat]
          exact Nat.testBit_lt_two_pow (lt_of_lt_of_le h (Nat.pow_le_pow_right (by omega) hwi))
        simp [h8, this]
      · simp [h8, hwi]

theorem coordBits_lt (v : Int) : coordBits v < 2 ^ 12 := (BitVec.ofInt 12 v).isLt

/-- A coordinate's field reads back as the coordinate (R57). -/
theorem toInt_coordBits (v : Int) (h : coordFits v = true) : (BitVec.ofNat 12 (coordBits v)).toInt = v := by
  have e : BitVec.ofNat 12 (coordBits v) = BitVec.ofInt 12 v := by
    apply BitVec.eq_of_toNat_eq
    have := coordBits_lt v
    rw [BitVec.toNat_ofNat, Nat.mod_eq_of_lt this]
    rfl
  simp only [coordFits, Bool.and_eq_true, decide_eq_true_eq] at h
  rw [e, BitVec.toInt_ofInt, Int.bmod_def]
  omega

end Sys2Proof
end

