-- ==== Sys2Proof/Laws/Memory.lean ====
section
/-! SUPPORT. The laws of the byte stores: reading after writing, the canonical form, the size, little-endian fields. -/

namespace Sys2Proof.Machine

/-! ### One byte -/

@[simp] theorem Memory.read_nil (j : Nat) : Memory.read [] j = 0 := rfl

theorem Memory.read_cons (a : Nat) (v : Byte) (m : Memory) (j : Nat) :
    Memory.read ((a, v) :: m) j = if j = a then v else Memory.read m j := rfl

theorem Memory.read_insert (m : Memory) (k : Nat) (v : Byte) (hk : ∀ p ∈ m, p.1 ≠ k) (j : Nat) :
    (Memory.insert k v m).read j = if j = k then v else m.read j := by
  induction m with
  | nil => rfl
  | cons p m ih =>
    obtain ⟨a, u⟩ := p
    have ha : a ≠ k := hk (a, u) (by simp)
    have ih' := ih (fun q hq => hk q (by simp [hq]))
    by_cases hka : k < a
    · simp only [Memory.insert, hka, if_true, Memory.read_cons]
    · simp only [Memory.insert, hka, if_false, Memory.read_cons, ih']
      by_cases hja : j = a
      · subst hja; simp [ha]
      · simp [hja]

theorem Memory.read_filter (m : Memory) (k j : Nat) :
    Memory.read (m.filter (fun p => p.1 != k)) j = if j = k then 0 else m.read j := by
  induction m with
  | nil => simp
  | cons p m ih =>
    obtain ⟨a, u⟩ := p
    by_cases hak : a = k
    · subst hak
      have : ((a, u) :: m).filter (fun p => p.1 != a) = m.filter (fun p => p.1 != a) := by simp
      rw [this, ih, Memory.read_cons]
      by_cases hja : j = a <;> simp [hja]
    · have : ((a, u) :: m).filter (fun p => p.1 != k) = (a, u) :: m.filter (fun p => p.1 != k) := by simp [hak]
      rw [this, Memory.read_cons, ih, Memory.read_cons]
      by_cases hja : j = a
      · subst hja; simp [hak]
      · simp [hja]

/-- A read after a write: the byte written at its address, every other byte as before. -/
@[simp] theorem Memory.read_write (m : Memory) (k : Nat) (v : Byte) (j : Nat) :
    (m.write k v).read j = if j = k then v else m.read j := by
  unfold Memory.write
  by_cases hv : v = 0
  · simp [hv, Memory.read_filter]
  · simp only [hv, if_false]
    rw [Memory.read_insert]
    · rw [Memory.read_filter]
      by_cases hj : j = k <;> simp [hj]
    · intro p hp
      simpa using (List.mem_filter.mp hp).2

theorem Memory.read_write_same (m : Memory) (k : Nat) (v : Byte) : (m.write k v).read k = v := by simp

theorem Memory.read_write_other (m : Memory) (k : Nat) (v : Byte) (j : Nat) (h : j ≠ k) :
    (m.write k v).read j = m.read j := by simp [h]

/-! ### The canonical form -/

theorem Memory.mem_insert (m : Memory) (k : Nat) (v : Byte) (p : Host.Cell) :
    p ∈ Memory.insert k v m ↔ p = (k, v) ∨ p ∈ m := by
  induction m with
  | nil => simp [Memory.insert]
  | cons q m ih =>
    obtain ⟨a, u⟩ := q
    by_cases hka : k < a
    · simp [Memory.insert, hka]
    · simp only [Memory.insert, hka, if_false, List.mem_cons, ih]
      tauto

theorem Memory.wf_insert (m : Memory) (k : Nat) (v : Byte) (h : Memory.wf m) (hk : ∀ p ∈ m, p.1 ≠ k) (hv : v ≠ 0) :
    Memory.wf (Memory.insert k v m) := by
  refine ⟨?_, ?_⟩
  · have hp := h.1
    clear h
    induction m with
    | nil => simp [Memory.insert]
    | cons q m ih =>
      obtain ⟨a, u⟩ := q
      have ha : a ≠ k := hk (a, u) (by simp)
      rw [List.pairwise_cons] at hp
      by_cases hka : k < a
      · simp only [Memory.insert, hka, if_true, List.pairwise_cons]
        refine ⟨?_, hp.1, hp.2⟩
        intro p hp'
        rcases List.mem_cons.mp hp' with rfl | hm
        · exact hka
        · exact lt_trans hka (hp.1 p hm)
      · simp only [Memory.insert, hka, if_false, List.pairwise_cons]
        refine ⟨?_, ih (fun p hm => hk p (by simp [hm])) hp.2⟩
        intro p hm
        rcases (Memory.mem_insert m k v p).mp hm with rfl | hm'
        · simp only; omega
        · exact hp.1 p hm'
  · intro p hm
    rcases (Memory.mem_insert m k v p).mp hm with rfl | hm'
    · exact hv
    · exact h.2 p hm'

/-- A write keeps the canonical form. -/
theorem Memory.wf_write (m : Memory) (k : Nat) (v : Byte) (h : Memory.wf m) : Memory.wf (m.write k v) := by
  have hf : Memory.wf (m.filter (fun p => p.1 != k)) :=
    ⟨h.1.filter _, fun p hp => h.2 p (List.mem_filter.mp hp).1⟩
  unfold Memory.write
  by_cases hv : v = 0
  · simpa [hv] using hf
  · simp only [hv, if_false]
    exact Memory.wf_insert _ k v hf (fun p hp => by simpa using (List.mem_filter.mp hp).2) hv

/-- A write inside a store of `n` bytes stays inside it. -/
theorem Memory.within_write (n : Nat) (m : Memory) (k : Nat) (v : Byte) (h : Memory.within n m) (hk : k < n) :
    Memory.within n (m.write k v) := by
  intro p hp
  unfold Memory.write at hp
  by_cases hv : v = 0
  · simp only [hv, if_true] at hp
    exact h p (List.mem_filter.mp hp).1
  · simp only [hv, if_false] at hp
    rcases (Memory.mem_insert _ k v p).mp hp with rfl | hm
    · exact hk
    · exact h p (List.mem_filter.mp hm).1

theorem Memory.wf_nil : Memory.wf [] := by simp [Memory.wf]

theorem Memory.within_nil (n : Nat) : Memory.within n [] := by simp [Memory.within]

/-- An address at or beyond a store's size reads 0. -/
theorem Memory.read_beyond (n : Nat) (m : Memory) (h : Memory.within n m) (j : Nat) (hj : n ≤ j) : m.read j = 0 := by
  induction m with
  | nil => rfl
  | cons p m ih =>
    obtain ⟨a, u⟩ := p
    have ha : a < n := h (a, u) (by simp)
    rw [Memory.read_cons, if_neg (by omega)]
    exact ih (fun q hq => h q (by simp [hq]))

theorem Memory.read_of_mem (m : Memory) (h : Memory.wf m) (p : Host.Cell) (hp : p ∈ m) : m.read p.1 = p.2 := by
  induction m with
  | nil => simp at hp
  | cons q m ih =>
    obtain ⟨a, u⟩ := q
    have hpw := List.pairwise_cons.mp h.1
    rcases List.mem_cons.mp hp with rfl | hm
    · simp [Memory.read_cons]
    · have : p.1 ≠ a := by have := hpw.1 p hm; simp only at this; omega
      rw [Memory.read_cons, if_neg this]
      exact ih ⟨hpw.2, fun r hr => h.2 r (by simp [hr])⟩ hm

theorem Memory.mem_of_read (m : Memory) (j : Nat) (h : m.read j ≠ 0) : (j, m.read j) ∈ m := by
  induction m with
  | nil => simp at h
  | cons q m ih =>
    obtain ⟨a, u⟩ := q
    rw [Memory.read_cons] at h ⊢
    by_cases hj : j = a
    · subst hj; simp
    · rw [if_neg hj] at h ⊢
      exact List.mem_cons_of_mem _ (ih h)

/-- Two canonical stores that read alike everywhere are equal. -/
theorem Memory.ext_of_wf (m n : Memory) (hm : Memory.wf m) (hn : Memory.wf n) (h : ∀ j, m.read j = n.read j) : m = n := by
  have sub : ∀ (m n : Memory), Memory.wf m → Memory.wf n → (∀ j, m.read j = n.read j) → ∀ p ∈ m, p ∈ n := by
    intro m n hm hn h p hp
    have h1 := Memory.read_of_mem m hm p hp
    have h2 : n.read p.1 = p.2 := by rw [← h, h1]
    have h3 := Memory.mem_of_read n p.1 (by rw [h2]; exact hm.2 p hp)
    rwa [h2] at h3
  have irr : ∀ p q : Host.Cell, p.1 < q.1 → ¬ q.1 < p.1 := by intro p q; omega
  have nodup : ∀ m : Memory, Memory.wf m → m.Nodup := by
    intro m hm
    refine List.Pairwise.imp ?_ hm.1
    rintro p q hpq rfl
    omega
  have perm : List.Perm m n :=
    (List.perm_ext_iff_of_nodup (nodup m hm) (nodup n hn)).mpr
      (fun p => ⟨sub m n hm hn h p, sub n m hn hm (fun j => (h j).symm) p⟩)
  exact perm.eq_of_pairwise (fun p q _ _ h1 h2 => absurd h2 (irr p q h1)) hm.1 hn.1

/-! ### A whole store from its bytes -/

theorem Memory.read_ofBytesFrom (a : Nat) (bs : List Byte) (j : Nat) :
    (Memory.ofBytesFrom a bs).read j = if a ≤ j then bs.getD (j - a) 0 else 0 := by
  induction bs generalizing a with
  | nil => simp [Memory.ofBytesFrom]
  | cons b bs ih =>
    by_cases hb : b = 0
    · simp only [Memory.ofBytesFrom, hb, if_true, ih]
      by_cases h1 : a + 1 ≤ j
      · have : j - a = (j - (a + 1)) + 1 := by omega
        simp [h1, show a ≤ j by omega, this]
      · by_cases h2 : a ≤ j
        · have : j - a = 0 := by omega
          simp [h1, h2, this]
        · simp [h1, h2]
    · simp only [Memory.ofBytesFrom, hb, if_false, Memory.read_cons, ih]
      by_cases h0 : j = a
      · subst h0; simp
      · by_cases h1 : a + 1 ≤ j
        · have : j - a = (j - (a + 1)) + 1 := by omega
          simp [h0, h1, show a ≤ j by omega, this]
        · simp [h0, h1, show ¬ a ≤ j by omega]

theorem Memory.mem_ofBytesFrom (a : Nat) (bs : List Byte) (p : Host.Cell) (h : p ∈ Memory.ofBytesFrom a bs) :
    a ≤ p.1 ∧ p.1 < a + bs.length ∧ p.2 ≠ 0 := by
  induction bs generalizing a with
  | nil => simp [Memory.ofBytesFrom] at h
  | cons b bs ih =>
    simp only [List.length_cons]
    by_cases hb : b = 0
    · simp only [Memory.ofBytesFrom, hb, if_true] at h
      have := ih _ h
      exact ⟨by omega, by omega, this.2.2⟩
    · simp only [Memory.ofBytesFrom, hb, if_false, List.mem_cons] at h
      rcases h with rfl | h
      · exact ⟨by simp, by simp, hb⟩
      · have := ih _ h
        exact ⟨by omega, by omega, this.2.2⟩

theorem Memory.wf_ofBytesFrom (a : Nat) (bs : List Byte) : Memory.wf (Memory.ofBytesFrom a bs) := by
  refine ⟨?_, fun p hp => (Memory.mem_ofBytesFrom a bs p hp).2.2⟩
  induction bs generalizing a with
  | nil => simp [Memory.ofBytesFrom]
  | cons b bs ih =>
    by_cases hb : b = 0
    · simpa [Memory.ofBytesFrom, hb] using ih (a + 1)
    · simp only [Memory.ofBytesFrom, hb, if_false, List.pairwise_cons]
      refine ⟨fun p hp => ?_, ih (a + 1)⟩
      have := Memory.mem_ofBytesFrom (a + 1) bs p hp
      show a < p.1
      omega

theorem Memory.within_ofBytesFrom (bs : List Byte) (n : Nat) (h : bs.length ≤ n) :
    Memory.within n (Memory.ofBytesFrom 0 bs) := by
  intro p hp
  have := Memory.mem_ofBytesFrom 0 bs p hp
  omega

@[simp] theorem Memory.length_bytesFrom (m : Memory) (a n : Nat) : (m.bytesFrom a n).length = n := by
  simp [Memory.bytesFrom]

theorem Memory.getD_bytesFrom (m : Memory) (a n i : Nat) (h : i < n) : (m.bytesFrom a n).getD i 0 = m.read (a + i) := by
  simp [Memory.bytesFrom, List.getD_eq_getElem?_getD, h]

theorem Memory.bytesFrom_congr (m n : Memory) (a k : Nat) (h : ∀ i, i < k → m.read (a + i) = n.read (a + i)) :
    m.bytesFrom a k = n.bytesFrom a k := by
  unfold Memory.bytesFrom
  apply List.map_congr_left
  intro j hj
  rw [List.mem_range'_1] at hj
  have := h (j - a) (by omega)
  rwa [show a + (j - a) = j by omega] at this

/-! ### Little-endian fields -/

theorem Memory.read_writeLE (m : Memory) (a n v j : Nat) :
    (m.writeLE a n v).read j = if a ≤ j ∧ j < a + n then BitVec.ofNat 8 (v / 256 ^ (j - a)) else m.read j := by
  induction n generalizing m a v with
  | zero => simp only [Memory.writeLE]; rw [if_neg (by omega)]
  | succ n ih =>
    simp only [Memory.writeLE, ih, Memory.read_write]
    by_cases h0 : j = a
    · subst h0
      rw [if_neg (by omega), if_pos rfl, if_pos (by omega)]
      simp
    · by_cases h1 : a + 1 ≤ j ∧ j < a + 1 + n
      · rw [if_pos h1, if_pos (by omega), Nat.div_div_eq_div_mul, show j - a = (j - (a + 1)) + 1 by omega,
          Nat.pow_succ, Nat.mul_comm 256]
      · rw [if_neg h1, if_neg h0, if_neg (by omega)]

theorem Memory.wf_writeLE (m : Memory) (a n v : Nat) (h : Memory.wf m) : Memory.wf (m.writeLE a n v) := by
  induction n generalizing m a v with
  | zero => exact h
  | succ n ih => exact ih _ _ _ (Memory.wf_write _ _ _ h)

theorem Memory.within_writeLE (size : Nat) (m : Memory) (a n v : Nat) (h : Memory.within size m) (ha : a + n ≤ size) :
    Memory.within size (m.writeLE a n v) := by
  induction n generalizing m a v with
  | zero => exact h
  | succ n ih => exact ih _ _ _ (Memory.within_write _ _ _ _ h (by omega)) (by omega)

theorem Memory.readLE_congr (m n : Memory) (a k : Nat) (h : ∀ i, i < k → m.read (a + i) = n.read (a + i)) :
    m.readLE a k = n.readLE a k := by
  induction k generalizing a with
  | zero => rfl
  | succ k ih =>
    have h0 := h 0 (by omega)
    simp only [Nat.add_zero] at h0
    simp only [Memory.readLE, h0]
    rw [ih (a + 1) (fun i hi => by have := h (i + 1) (by omega); rwa [show a + (i + 1) = a + 1 + i by omega] at this)]

theorem Memory.readLE_lt (m : Memory) (a k : Nat) : m.readLE a k < 256 ^ k := by
  induction k generalizing a with
  | zero => simp [Memory.readLE]
  | succ k ih =>
    have h1 := ih (a + 1)
    have h2 := (m.read a).isLt
    simp only [Memory.readLE, Nat.pow_succ]
    omega

/-- Bytes that are those of a number, low byte first, read back as that number. -/
theorem Memory.readLE_of_bytes (m : Memory) (a k v : Nat)
    (h : ∀ i, i < k → m.read (a + i) = BitVec.ofNat 8 (v / 256 ^ i)) : m.readLE a k = v % 256 ^ k := by
  induction k generalizing a v with
  | zero => simp [Memory.readLE, Nat.mod_one]
  | succ k ih =>
    have h0 := h 0 (by omega)
    simp only [Nat.add_zero, Nat.pow_zero, Nat.div_one] at h0
    have h1 : m.readLE (a + 1) k = (v / 256) % 256 ^ k := by
      apply ih
      intro i hi
      have := h (i + 1) (by omega)
      rw [show a + 1 + i = a + (i + 1) by omega, this, Nat.div_div_eq_div_mul, Nat.pow_succ, Nat.mul_comm 256]
    simp only [Memory.readLE, h0, h1, BitVec.toNat_ofNat]
    rw [show 256 ^ (k + 1) = 256 * 256 ^ k by rw [Nat.pow_succ, Nat.mul_comm], Nat.mod_mul]

/-- MemRead after MemWrite of the same field (R16). -/
theorem Memory.readLE_writeLE (m : Memory) (a k v : Nat) : (m.writeLE a k v).readLE a k = v % 256 ^ k := by
  apply Memory.readLE_of_bytes
  intro i hi
  rw [Memory.read_writeLE, if_pos (by omega), show a + i - a = i by omega]

end Sys2Proof.Machine
end

