-- ==== Sys2Proof/Laws/State.lean ====
section
/-! SUPPORT. What each update of the state does to each field, so that no proof unfolds an update. -/

namespace Sys2Proof.Machine

/-! Recording a fault. -/

@[simp] theorem State.raise_cfg (s : State) (code : FaultCode) : (s.raise code).cfg = s.cfg := rfl
@[simp] theorem State.raise_tx (s : State) (code : FaultCode) : (s.raise code).tx = s.tx := rfl
@[simp] theorem State.raise_rx (s : State) (code : FaultCode) : (s.raise code).rx = s.rx := rfl
@[simp] theorem State.raise_fb (s : State) (code : FaultCode) : (s.raise code).fb = s.fb := rfl
@[simp] theorem State.raise_status (s : State) (code : FaultCode) : (s.raise code).status = { s.status with fault := true, fcode := code } := rfl
@[simp] theorem State.raise_res (s : State) (code : FaultCode) : (s.raise code).res = s.res := rfl
@[simp] theorem State.raise_btnCur (s : State) (code : FaultCode) : (s.raise code).btnCur = s.btnCur := rfl
@[simp] theorem State.raise_btnPrev (s : State) (code : FaultCode) : (s.raise code).btnPrev = s.btnPrev := rfl
@[simp] theorem State.raise_dptr (s : State) (code : FaultCode) : (s.raise code).dptr = s.dptr := rfl
@[simp] theorem State.raise_drem (s : State) (code : FaultCode) : (s.raise code).drem = s.drem := rfl
@[simp] theorem State.raise_seq (s : State) (code : FaultCode) : (s.raise code).seq = s.seq := rfl
@[simp] theorem State.raise_seqCol (s : State) (code : FaultCode) : (s.raise code).seqCol = s.seqCol := rfl
@[simp] theorem State.raise_port (s : State) (code : FaultCode) : (s.raise code).port = s.port := rfl
@[simp] theorem State.raise_resetIn (s : State) (code : FaultCode) : (s.raise code).resetIn = s.resetIn := rfl
@[simp] theorem State.raise_env (s : State) (code : FaultCode) : (s.raise code).env = s.env := rfl

/-! Reset. -/

@[simp] theorem State.applyReset_cfg (s : State) : (s.applyReset).cfg = s.cfg := rfl
@[simp] theorem State.applyReset_tx (s : State) : (s.applyReset).tx = [] := rfl
@[simp] theorem State.applyReset_rx (s : State) : (s.applyReset).rx = [] := rfl
@[simp] theorem State.applyReset_fb (s : State) : (s.applyReset).fb = [] := rfl
@[simp] theorem State.applyReset_status (s : State) : (s.applyReset).status = Status.reset := rfl
@[simp] theorem State.applyReset_res (s : State) : (s.applyReset).res = 0 := rfl
@[simp] theorem State.applyReset_btnCur (s : State) : (s.applyReset).btnCur = 0 := rfl
@[simp] theorem State.applyReset_btnPrev (s : State) : (s.applyReset).btnPrev = 0 := rfl
@[simp] theorem State.applyReset_dptr (s : State) : (s.applyReset).dptr = 0 := rfl
@[simp] theorem State.applyReset_drem (s : State) : (s.applyReset).drem = 0 := rfl
@[simp] theorem State.applyReset_seq (s : State) : (s.applyReset).seq = .idle := rfl
@[simp] theorem State.applyReset_seqCol (s : State) : (s.applyReset).seqCol = 0 := rfl
@[simp] theorem State.applyReset_port (s : State) : (s.applyReset).port = [] := rfl
@[simp] theorem State.applyReset_resetIn (s : State) : (s.applyReset).resetIn = false := rfl
@[simp] theorem State.applyReset_env (s : State) : (s.applyReset).env = s.env := rfl

/-! A word issued by the host. -/

@[simp] theorem State.present_cfg (s : State) (cw : Word) : (s.present cw).cfg = s.cfg := rfl
@[simp] theorem State.present_tx (s : State) (cw : Word) : (s.present cw).tx = s.tx := rfl
@[simp] theorem State.present_rx (s : State) (cw : Word) : (s.present cw).rx = s.rx := rfl
@[simp] theorem State.present_fb (s : State) (cw : Word) : (s.present cw).fb = s.fb := rfl
@[simp] theorem State.present_status (s : State) (cw : Word) : (s.present cw).status = s.status := rfl
@[simp] theorem State.present_res (s : State) (cw : Word) : (s.present cw).res = s.res := rfl
@[simp] theorem State.present_btnCur (s : State) (cw : Word) : (s.present cw).btnCur = s.btnCur := rfl
@[simp] theorem State.present_btnPrev (s : State) (cw : Word) : (s.present cw).btnPrev = s.btnPrev := rfl
@[simp] theorem State.present_dptr (s : State) (cw : Word) : (s.present cw).dptr = s.dptr := rfl
@[simp] theorem State.present_drem (s : State) (cw : Word) : (s.present cw).drem = s.drem := rfl
@[simp] theorem State.present_seq (s : State) (cw : Word) : (s.present cw).seq = s.seq := rfl
@[simp] theorem State.present_seqCol (s : State) (cw : Word) : (s.present cw).seqCol = s.seqCol := rfl
@[simp] theorem State.present_port (s : State) (cw : Word) : (s.present cw).port = s.port ++ [cw] := rfl
@[simp] theorem State.present_resetIn (s : State) (cw : Word) : (s.present cw).resetIn = s.resetIn := rfl
@[simp] theorem State.present_env (s : State) (cw : Word) : (s.present cw).env = s.env := rfl

/-! The reset input asserted. -/

@[simp] theorem State.assertReset_cfg (s : State) : (s.assertReset).cfg = s.cfg := rfl
@[simp] theorem State.assertReset_tx (s : State) : (s.assertReset).tx = s.tx := rfl
@[simp] theorem State.assertReset_rx (s : State) : (s.assertReset).rx = s.rx := rfl
@[simp] theorem State.assertReset_fb (s : State) : (s.assertReset).fb = s.fb := rfl
@[simp] theorem State.assertReset_status (s : State) : (s.assertReset).status = s.status := rfl
@[simp] theorem State.assertReset_res (s : State) : (s.assertReset).res = s.res := rfl
@[simp] theorem State.assertReset_btnCur (s : State) : (s.assertReset).btnCur = s.btnCur := rfl
@[simp] theorem State.assertReset_btnPrev (s : State) : (s.assertReset).btnPrev = s.btnPrev := rfl
@[simp] theorem State.assertReset_dptr (s : State) : (s.assertReset).dptr = s.dptr := rfl
@[simp] theorem State.assertReset_drem (s : State) : (s.assertReset).drem = s.drem := rfl
@[simp] theorem State.assertReset_seq (s : State) : (s.assertReset).seq = s.seq := rfl
@[simp] theorem State.assertReset_seqCol (s : State) : (s.assertReset).seqCol = s.seqCol := rfl
@[simp] theorem State.assertReset_port (s : State) : (s.assertReset).port = s.port := rfl
@[simp] theorem State.assertReset_resetIn (s : State) : (s.assertReset).resetIn = true := rfl
@[simp] theorem State.assertReset_env (s : State) : (s.assertReset).env = s.env := rfl

/-! BEGIN_FRAME. -/

@[simp] theorem beginFrame_cfg (s : State) : (beginFrame s).cfg = s.cfg := rfl
@[simp] theorem beginFrame_tx (s : State) : (beginFrame s).tx = Memory.writeLE [] 4 8 s.cfg.k.deviceId.toNat := rfl
@[simp] theorem beginFrame_rx (s : State) : (beginFrame s).rx = s.rx := rfl
@[simp] theorem beginFrame_fb (s : State) : (beginFrame s).fb = s.fb := rfl
@[simp] theorem beginFrame_status (s : State) : (beginFrame s).status = s.status := rfl
@[simp] theorem beginFrame_res (s : State) : (beginFrame s).res = s.res := rfl
@[simp] theorem beginFrame_btnCur (s : State) : (beginFrame s).btnCur = s.btnCur := rfl
@[simp] theorem beginFrame_btnPrev (s : State) : (beginFrame s).btnPrev = s.btnPrev := rfl
@[simp] theorem beginFrame_dptr (s : State) : (beginFrame s).dptr = 0 := rfl
@[simp] theorem beginFrame_drem (s : State) : (beginFrame s).drem = 0 := rfl
@[simp] theorem beginFrame_seq (s : State) : (beginFrame s).seq = s.seq := rfl
@[simp] theorem beginFrame_seqCol (s : State) : (beginFrame s).seqCol = s.seqCol := rfl
@[simp] theorem beginFrame_port (s : State) : (beginFrame s).port = s.port := rfl
@[simp] theorem beginFrame_resetIn (s : State) : (beginFrame s).resetIn = s.resetIn := rfl
@[simp] theorem beginFrame_env (s : State) : (beginFrame s).env = s.env := rfl

/-! FINALIZE. -/

@[simp] theorem finalize_cfg (s : State) : (finalize s).cfg = s.cfg := rfl
@[simp] theorem finalize_tx (s : State) : (finalize s).tx = s.tx.writeLE 0 2 s.cfg.k.magic.toNat := rfl
@[simp] theorem finalize_rx (s : State) : (finalize s).rx = s.rx := rfl
@[simp] theorem finalize_fb (s : State) : (finalize s).fb = s.fb := rfl
@[simp] theorem finalize_status (s : State) : (finalize s).status = s.status := rfl
@[simp] theorem finalize_res (s : State) : (finalize s).res = s.res := rfl
@[simp] theorem finalize_btnCur (s : State) : (finalize s).btnCur = s.btnCur := rfl
@[simp] theorem finalize_btnPrev (s : State) : (finalize s).btnPrev = s.btnPrev := rfl
@[simp] theorem finalize_dptr (s : State) : (finalize s).dptr = s.dptr := rfl
@[simp] theorem finalize_drem (s : State) : (finalize s).drem = s.drem := rfl
@[simp] theorem finalize_seq (s : State) : (finalize s).seq = s.seq := rfl
@[simp] theorem finalize_seqCol (s : State) : (finalize s).seqCol = s.seqCol := rfl
@[simp] theorem finalize_port (s : State) : (finalize s).port = s.port := rfl
@[simp] theorem finalize_resetIn (s : State) : (finalize s).resetIn = s.resetIn := rfl
@[simp] theorem finalize_env (s : State) : (finalize s).env = s.env := rfl

/-! One exchange. -/

@[simp] theorem exchange_cfg (s : State) : (exchange s).cfg = s.cfg := by simp only [exchange]
@[simp] theorem exchange_tx (s : State) : (exchange s).tx = s.tx := by simp only [exchange]
@[simp] theorem exchange_rx (s : State) : (exchange s).rx = Memory.ofBytesFrom 0 (Env.receive (s.tx.bytesFrom 0 frameSize) s.env) := by simp only [exchange]
@[simp] theorem exchange_fb (s : State) : (exchange s).fb = s.fb := by simp only [exchange]
@[simp] theorem exchange_status (s : State) : (exchange s).status = { s.status with rxv := validFrame s.cfg (exchange s).rx, rxd := false } := by simp only [exchange]
@[simp] theorem exchange_res (s : State) : (exchange s).res = s.res := by simp only [exchange]
@[simp] theorem exchange_btnCur (s : State) : (exchange s).btnCur = s.btnCur := by simp only [exchange]
@[simp] theorem exchange_btnPrev (s : State) : (exchange s).btnPrev = s.btnPrev := by simp only [exchange]
@[simp] theorem exchange_dptr (s : State) : (exchange s).dptr = s.dptr := by simp only [exchange]
@[simp] theorem exchange_drem (s : State) : (exchange s).drem = s.drem := by simp only [exchange]
@[simp] theorem exchange_seq (s : State) : (exchange s).seq = s.seq := by simp only [exchange]
@[simp] theorem exchange_seqCol (s : State) : (exchange s).seqCol = s.seqCol := by simp only [exchange]
@[simp] theorem exchange_port (s : State) : (exchange s).port = s.port := by simp only [exchange]
@[simp] theorem exchange_resetIn (s : State) : (exchange s).resetIn = s.resetIn := by simp only [exchange]
@[simp] theorem exchange_env (s : State) : (exchange s).env = Env.afterSend (s.tx.bytesFrom 0 frameSize) s.env := by simp only [exchange]

/-! The environment. -/

@[simp] theorem Env.afterTransfer_transferIn (e : Env) (b : Byte) : (e.afterTransfer b).transferIn = e.transferIn.tail := rfl
@[simp] theorem Env.afterTransfer_readyIn (e : Env) (b : Byte) : (e.afterTransfer b).readyIn = e.readyIn := rfl
@[simp] theorem Env.afterTransfer_transfers (e : Env) (b : Byte) : (e.afterTransfer b).transfers = e.transfers + 1 := rfl
@[simp] theorem Env.afterTransfer_samples (e : Env) (b : Byte) : (e.afterTransfer b).samples = e.samples := rfl
@[simp] theorem Env.afterTransfer_wire (e : Env) (b : Byte) : (e.afterTransfer b).wire = e.wire ++ [b] := rfl
@[simp] theorem Env.afterSample_transferIn (e : Env) : e.afterSample.transferIn = e.transferIn := rfl
@[simp] theorem Env.afterSample_readyIn (e : Env) : e.afterSample.readyIn = e.readyIn.tail := rfl
@[simp] theorem Env.afterSample_transfers (e : Env) : e.afterSample.transfers = e.transfers := rfl
@[simp] theorem Env.afterSample_samples (e : Env) : e.afterSample.samples = e.samples + 1 := rfl
@[simp] theorem Env.afterSample_wire (e : Env) : e.afterSample.wire = e.wire := rfl

/-! Ending a command. -/

@[simp] theorem State.finish_ok (s t : State) : s.finish (.ok t) = t := rfl
@[simp] theorem State.finish_error (s : State) (code : FaultCode) : s.finish (.error code) = s.raise code := rfl

end Sys2Proof.Machine
end

