-- ==== Sys2Proof/Laws/Frame.lean ====
section
/-! SUPPORT. What the functions of the packet builder do: one lemma for each of `append`, `put`, a run of `put`s, a whole
packet, and a run of packets. -/

namespace Sys2Proof.Machine

theorem roundup4_ge (n : Nat) : n ≤ roundup4 n := by unfold roundup4; omega

theorem roundup4_lt (n : Nat) : roundup4 n < n + 4 := by unfold roundup4; omega

theorem roundup4_mod (n : Nat) : roundup4 n % 4 = 0 := by unfold roundup4; omega

/-- `roundup4` is the spec's `(n + 3) & ~3`: the sum with its two low bits cleared (R15). -/
theorem roundup4_clears_low_bits (n : Nat) : roundup4 n = (n + 3) - (n + 3) % 4 := by unfold roundup4; omega

theorem footprint_mod (n : Nat) : footprint n % 4 = 0 := by
  have := roundup4_mod n
  unfold footprint pktHdr
  omega

theorem footprint_ge (n : Nat) : n + 4 ≤ footprint n := by
  have := roundup4_ge n
  unfold footprint pktHdr
  omega

theorem toNat_ofNat8 (n : Nat) (h : n < 256) : (BitVec.ofNat 8 n).toNat = n := by
  rw [BitVec.toNat_ofNat]; omega

/-- The bytes of a packet without its padding: header and data (R63). -/
def packetBytes (size svc : Byte) (cmd : BitVec 16) (data : List Byte) : List Byte :=
  size :: svc :: BitVec.ofNat 8 cmd.toNat :: BitVec.ofNat 8 (cmd.toNat / 256) :: data

/-- `append` within the capacity: what it answers (R72). -/
theorem append_ok (size svc : Byte) (cmd : BitVec 16) (s : State)
    (h : writeCursor s + footprint size.toNat ≤ payloadCap) :
    ∃ m, append size svc cmd s
        = .ok { s with tx := m, dptr := BitVec.ofNat 8 (writeCursor s + pktHdr), drem := size }
      ∧ (∀ j, m.read j
          = if j = 2 then BitVec.ofNat 8 (writeCursor s + footprint size.toNat)
            else if frameHdr + writeCursor s ≤ j ∧ j < frameHdr + writeCursor s + pktHdr then
              (packetBytes size svc cmd []).getD (j - (frameHdr + writeCursor s)) 0
            else s.tx.read j)
      ∧ (Memory.wf s.tx → Memory.wf m) ∧ (Memory.within frameSize s.tx → Memory.within frameSize m) := by
  have hfp := footprint_ge size.toNat
  have hcap : ¬ payloadCap < writeCursor s + footprint size.toNat := by omega
  refine ⟨(((s.tx.write (frameHdr + writeCursor s) size).write (frameHdr + writeCursor s + 1) svc).writeLE
    (frameHdr + writeCursor s + 2) 2 cmd.toNat).write 2 (BitVec.ofNat 8 (writeCursor s + footprint size.toNat)),
    by simp only [append, hcap, if_false], ?_, ?_, ?_⟩
  · intro j
    simp only [Memory.read_write, Memory.read_writeLE]
    by_cases h2 : j = 2
    · simp [h2]
    · simp only [h2, if_false]
      by_cases hin : frameHdr + writeCursor s ≤ j ∧ j < frameHdr + writeCursor s + pktHdr
      · rw [if_pos hin]
        simp only [pktHdr] at hin
        obtain h0 | h0 | h0 | h0 : j - (frameHdr + writeCursor s) = 0 ∨ j - (frameHdr + writeCursor s) = 1
            ∨ j - (frameHdr + writeCursor s) = 2 ∨ j - (frameHdr + writeCursor s) = 3 := by omega
        · rw [h0, if_neg (by omega), if_neg (by omega), if_pos (by omega)]; rfl
        · rw [h0, if_neg (by omega), if_pos (by omega)]; rfl
        · rw [h0, if_pos (by omega), show j - (frameHdr + writeCursor s + 2) = 0 by omega]
          simp [packetBytes]
        · rw [h0, if_pos (by omega), show j - (frameHdr + writeCursor s + 2) = 1 by omega]
          simp [packetBytes]
      · rw [if_neg hin]
        simp only [pktHdr] at hin
        rw [if_neg (by omega), if_neg (by omega), if_neg (by omega)]
  · intro hw
    exact Memory.wf_write _ _ _ (Memory.wf_writeLE _ _ _ _ (Memory.wf_write _ _ _ (Memory.wf_write _ _ _ hw)))
  · intro hw
    simp only [payloadCap] at h
    refine Memory.within_write _ _ _ _ (Memory.within_writeLE _ _ _ _ _ (Memory.within_write _ _ _ _
      (Memory.within_write _ _ _ _ hw ?_) ?_) ?_) ?_ <;> simp only [frameHdr, frameSize] <;> omega

/-- `append` past the capacity faults (R72). -/
theorem append_overflow (size svc : Byte) (cmd : BitVec 16) (s : State)
    (h : payloadCap < writeCursor s + footprint size.toNat) :
    append size svc cmd s = .error .appendOverflow := by
  simp only [append, h, if_true]

theorem sub_one_toNat (b : Byte) (h : b ≠ 0) : (b - 1).toNat = b.toNat - 1 := by
  have h0 : b.toNat ≠ 0 := fun hb => h (BitVec.eq_of_toNat_eq (by simpa using hb))
  have := b.isLt
  rw [BitVec.toNat_sub]
  simp
  omega

/-- A run of `put`s inside the data window: what it answers (R73). -/
theorem putAll_ok (bs : List Byte) (s : State) (hrem : bs.length ≤ s.drem.toNat)
    (hfit : s.dptr.toNat + bs.length ≤ payloadCap) :
    ∃ m, putAll bs s = .ok { s with tx := m, dptr := BitVec.ofNat 8 (s.dptr.toNat + bs.length),
                                    drem := BitVec.ofNat 8 (s.drem.toNat - bs.length) }
      ∧ (∀ j, m.read j
          = if frameHdr + s.dptr.toNat ≤ j ∧ j < frameHdr + s.dptr.toNat + bs.length then
              bs.getD (j - (frameHdr + s.dptr.toNat)) 0
            else s.tx.read j)
      ∧ (Memory.wf s.tx → Memory.wf m) ∧ (Memory.within frameSize s.tx → Memory.within frameSize m) := by
  induction bs generalizing s with
  | nil =>
    refine ⟨s.tx, ?_, ?_, id, id⟩
    · simp [putAll, BitVec.ofNat_toNat]
    · intro j
      rw [if_neg (by simp only [List.length_nil]; omega)]
  | cons b bs ih =>
    simp only [List.length_cons] at hrem hfit
    have hd : s.drem ≠ 0 := by intro h0; rw [h0] at hrem; simp at hrem
    simp only [payloadCap] at hfit
    have hp1 : (s.dptr + 1).toNat = s.dptr.toNat + 1 := by
      rw [BitVec.toNat_add]; simp; omega
    have hr1 : (s.drem - 1).toNat = s.drem.toNat - 1 := sub_one_toNat _ hd
    obtain ⟨m, hm, hread, hwf, hin⟩ := ih
      { s with tx := s.tx.write (frameHdr + s.dptr.toNat) b, dptr := s.dptr + 1, drem := s.drem - 1 }
      (by simp only [hr1]; omega) (by simp only [hp1, payloadCap]; omega)
    refine ⟨m, ?_, ?_, ?_, ?_⟩
    · simp only [putAll, put, hd, if_false, hm, hp1, hr1, List.length_cons]
      rw [show s.dptr.toNat + 1 + bs.length = s.dptr.toNat + (bs.length + 1) by omega,
        show s.drem.toNat - 1 - bs.length = s.drem.toNat - (bs.length + 1) by omega]
    · intro j
      rw [hread j]
      simp only [hp1, Memory.read_write, List.length_cons]
      by_cases h0 : j = frameHdr + s.dptr.toNat
      · rw [if_neg (by omega), if_pos h0, if_pos (by omega), h0, Nat.sub_self, List.getD_cons_zero]
      · by_cases h1 : frameHdr + (s.dptr.toNat + 1) ≤ j ∧ j < frameHdr + (s.dptr.toNat + 1) + bs.length
        · rw [if_pos h1, if_pos (by omega),
            show j - (frameHdr + s.dptr.toNat) = (j - (frameHdr + (s.dptr.toNat + 1))) + 1 by omega,
            List.getD_cons_succ]
        · rw [if_neg h1, if_neg h0, if_neg (by omega)]
    · exact fun h => hwf (Memory.wf_write _ _ _ h)
    · exact fun h => hin (Memory.within_write _ _ _ _ h (by simp only [frameHdr, frameSize]; omega))

/-- A whole packet within the capacity: what it answers (R63, R72, R73). -/
theorem appendPacket_ok (size svc : Byte) (cmd : BitVec 16) (data : List Byte) (s : State)
    (hsize : data.length = size.toNat) (h : writeCursor s + footprint data.length ≤ payloadCap) :
    ∃ m, appendPacket size svc cmd data s
        = .ok { s with tx := m, dptr := BitVec.ofNat 8 (writeCursor s + pktHdr + data.length), drem := 0 }
      ∧ (∀ j, m.read j
          = if j = 2 then BitVec.ofNat 8 (writeCursor s + footprint data.length)
            else if frameHdr + writeCursor s ≤ j ∧ j < frameHdr + writeCursor s + pktHdr + data.length then
              (packetBytes size svc cmd data).getD (j - (frameHdr + writeCursor s)) 0
            else s.tx.read j)
      ∧ (Memory.wf s.tx → Memory.wf m) ∧ (Memory.within frameSize s.tx → Memory.within frameSize m) := by
  have hfp := footprint_ge data.length
  obtain ⟨m1, h1, hread1, hwf1, hin1⟩ := append_ok size svc cmd s (by rw [← hsize]; exact h)
  simp only [payloadCap] at h
  have hdp : (BitVec.ofNat 8 (writeCursor s + pktHdr)).toNat = writeCursor s + pktHdr :=
    toNat_ofNat8 _ (by simp only [pktHdr]; omega)
  obtain ⟨m2, h2, hread2, hwf2, hin2⟩ := putAll_ok data
    { s with tx := m1, dptr := BitVec.ofNat 8 (writeCursor s + pktHdr), drem := size }
    (by simp only; omega) (by simp only [hdp, pktHdr, payloadCap]; omega)
  refine ⟨m2, ?_, ?_, fun hw => hwf2 (hwf1 hw), fun hw => hin2 (hin1 hw)⟩
  · simp only [hdp, ← hsize, Nat.sub_self] at h2
    simp only [appendPacket, h1, h2]
    rfl
  · intro j
    rw [hread2 j]
    simp only [hdp, hread1, ← hsize]
    by_cases hj2 : j = 2
    · subst hj2
      rw [if_neg (by simp only [frameHdr]; omega), if_pos rfl, if_pos rfl]
    · simp only [hj2, if_false]
      by_cases hd : frameHdr + (writeCursor s + pktHdr) ≤ j ∧ j < frameHdr + (writeCursor s + pktHdr) + data.length
      · rw [if_pos hd, if_pos (by omega),
          show j - (frameHdr + writeCursor s) = (j - (frameHdr + (writeCursor s + pktHdr))) + 1 + 1 + 1 + 1 by
            simp only [pktHdr] at *; omega]
        simp [packetBytes]
      · rw [if_neg hd]
        by_cases hh : frameHdr + writeCursor s ≤ j ∧ j < frameHdr + writeCursor s + pktHdr
        · rw [if_pos hh, if_pos (by omega)]
          simp only [pktHdr] at hh
          obtain h0 | h0 | h0 | h0 : j - (frameHdr + writeCursor s) = 0 ∨ j - (frameHdr + writeCursor s) = 1
              ∨ j - (frameHdr + writeCursor s) = 2 ∨ j - (frameHdr + writeCursor s) = 3 := by omega
          all_goals (rw [h0]; rfl)
        · rw [if_neg hh, if_neg (by omega)]

end Sys2Proof.Machine
end

