-- ==== Sys2Proof/Laws/Packets.lean ====
section
/-! SUPPORT. What a run of packets leaves in a frame, and what a scan reads from it. -/

namespace Sys2Proof.Machine

theorem totalFootprint_cons (m : Message) (ms : List Message) :
    totalFootprint (m :: ms) = footprint m.data.length + totalFootprint ms := rfl

theorem totalFootprint_append (ms ns : List Message) :
    totalFootprint (ms ++ ns) = totalFootprint ms + totalFootprint ns := by
  simp [totalFootprint]

theorem four_mul_length_le_totalFootprint (ms : List Message) : 4 * ms.length ≤ totalFootprint ms := by
  induction ms with
  | nil => simp [totalFootprint]
  | cons m ms ih =>
    have := footprint_ge m.data.length
    rw [totalFootprint_cons, List.length_cons]
    omega

theorem totalFootprint_mod (ms : List Message) : totalFootprint ms % 4 = 0 := by
  induction ms with
  | nil => simp [totalFootprint]
  | cons m ms ih =>
    have := footprint_mod m.data.length
    rw [totalFootprint_cons]
    omega

theorem packetIs_congr (f g : Memory) (off : Nat) (svc : Byte) (cmd : BitVec 16) (data : List Byte)
    (h : ∀ j, frameHdr + off ≤ j → j < frameHdr + off + footprint data.length → g.read j = f.read j)
    (hp : PacketIs f off svc cmd data) : PacketIs g off svc cmd data := by
  have hfp := footprint_ge data.length
  obtain ⟨h1, h2, h3, h4, h5⟩ := hp
  refine ⟨?_, ?_, ?_, ?_, ?_⟩
  · rw [h _ (by omega) (by omega), h1]
  · rw [h _ (by omega) (by omega), h2]
  · rw [← h3]; exact Memory.readLE_congr _ _ _ _ (fun i hi => h _ (by omega) (by omega))
  · intro j hj; rw [h _ (by omega) (by simp only [pktHdr]; omega)]; exact h4 j hj
  · intro j hj hr
    rw [h _ (by omega) (by unfold footprint; omega)]; exact h5 j hj hr

theorem packetsAt_congr (ms : List Message) (f g : Memory) (off : Nat)
    (h : ∀ j, frameHdr + off ≤ j → j < frameHdr + off + totalFootprint ms → g.read j = f.read j)
    (hp : PacketsAt f off ms) : PacketsAt g off ms := by
  induction ms generalizing off with
  | nil => trivial
  | cons m ms ih =>
    rw [totalFootprint_cons] at h
    exact ⟨packetIs_congr f g off _ _ _ (fun j h1 h2 => h j h1 (by omega)) hp.1,
      ih _ (fun j h1 h2 => h j (by omega) (by omega)) hp.2⟩

/-- The `i`-th of some packets stands after the footprints of those before it. -/
theorem packetsAt_get (ms : List Message) (f : Memory) (off i : Nat) (m : Message) (hm : ms[i]? = some m)
    (hp : PacketsAt f off ms) : PacketIs f (off + totalFootprint (ms.take i)) m.svc m.cmd m.data := by
  induction ms generalizing off i with
  | nil => simp at hm
  | cons n ms ih =>
    cases i with
    | zero =>
      simp only [List.getElem?_cons_zero, Option.some.injEq] at hm
      subst hm
      simpa [totalFootprint] using hp.1
    | succ i =>
      simp only [List.getElem?_cons_succ] at hm
      have := ih _ i hm hp.2
      rw [List.take_succ_cons, totalFootprint_cons, ← Nat.add_assoc]
      exact this

/-- One packet put into a frame whose bytes from the cursor on are 0. -/
theorem appendPacket_packetIs (svc : Byte) (cmd : BitVec 16) (data : List Byte) (s : State)
    (h : writeCursor s + footprint data.length ≤ payloadCap)
    (hzero : ∀ p, writeCursor s ≤ p → s.tx.read (frameHdr + p) = 0) :
    ∃ t, appendPacket (BitVec.ofNat 8 data.length) svc cmd data s = .ok t
      ∧ t = { s with tx := t.tx, dptr := BitVec.ofNat 8 (writeCursor s + pktHdr + data.length), drem := 0 }
      ∧ writeCursor t = writeCursor s + footprint data.length
      ∧ (∀ j, j ≠ 2 → j < frameHdr + writeCursor s → t.tx.read j = s.tx.read j)
      ∧ (∀ p, writeCursor t ≤ p → t.tx.read (frameHdr + p) = 0)
      ∧ PacketIs t.tx (writeCursor s) svc cmd data
      ∧ (Memory.wf s.tx → Memory.wf t.tx) ∧ (Memory.within frameSize s.tx → Memory.within frameSize t.tx) := by
  have hfp := footprint_ge data.length
  have h' := h
  simp only [payloadCap] at h'
  have hlen : data.length = (BitVec.ofNat 8 data.length).toNat := (toNat_ofNat8 _ (by omega)).symm
  obtain ⟨m, hm, hread, hwf, hin⟩ := appendPacket_ok (BitVec.ofNat 8 data.length) svc cmd data s hlen h
  have hcur : writeCursor { s with tx := m, dptr := BitVec.ofNat 8 (writeCursor s + pktHdr + data.length), drem := 0 }
      = writeCursor s + footprint data.length := by
    have := hread 2
    simp only [if_true] at this
    show (m.read 2).toNat = _
    rw [this, toNat_ofNat8 _ (by omega)]
  refine ⟨_, hm, rfl, hcur, ?_, ?_, ?_, hwf, hin⟩
  · intro j h2 hj
    show m.read j = _
    rw [hread, if_neg h2, if_neg (by omega)]
  · intro p hp
    rw [hcur] at hp
    show m.read _ = _
    rw [hread, if_neg (by simp only [frameHdr]; omega), if_neg (by simp only [pktHdr]; omega)]
    exact hzero p (by omega)
  · have at' : ∀ i, i < pktHdr + data.length → m.read (frameHdr + writeCursor s + i)
        = (packetBytes (BitVec.ofNat 8 data.length) svc cmd data).getD i 0 := by
      intro i hi
      rw [hread, if_neg (by simp only [frameHdr]; omega), if_pos (by omega),
        show frameHdr + writeCursor s + i - (frameHdr + writeCursor s) = i by omega]
    simp only [pktHdr] at at'
    refine ⟨?_, ?_, ?_, ?_, ?_⟩
    · have := at' 0 (by omega)
      simp only [Nat.add_zero, packetBytes, List.getD_cons_zero] at this
      show (m.read _).toNat = _
      rw [this, ← hlen]
    · have := at' 1 (by omega)
      simpa [packetBytes] using this
    · have h2 := at' 2 (by omega)
      have h3 := at' 3 (by omega)
      have := Memory.readLE_of_bytes m (frameHdr + writeCursor s + 2) 2 cmd.toNat (by
        intro i hi
        obtain rfl | rfl : i = 0 ∨ i = 1 := by omega
        · simpa [packetBytes] using h2
        · simpa [packetBytes] using h3)
      show m.readLE _ 2 = _
      rw [this]
      have := cmd.isLt
      omega
    · intro j hj
      have := at' (j + 4) (by omega)
      show m.read _ = _
      rw [show frameHdr + writeCursor s + pktHdr + j = frameHdr + writeCursor s + (j + 4) by simp only [pktHdr]; omega,
        this]
      simp [packetBytes]
    · intro j hj hr
      show m.read _ = _
      rw [hread, if_neg (by simp only [frameHdr]; omega), if_neg (by omega),
        show frameHdr + writeCursor s + pktHdr + j = frameHdr + (writeCursor s + pktHdr + j) by omega]
      exact hzero _ (by omega)

/-- A run of packets within the capacity: what it answers (R72, R73, R78). -/
theorem appendAll_ok (ms : List Message) (s : State) (h : writeCursor s + totalFootprint ms ≤ payloadCap)
    (hzero : ∀ p, writeCursor s ≤ p → s.tx.read (frameHdr + p) = 0) :
    ∃ t, appendAll ms s = .ok t ∧ t = { s with tx := t.tx, dptr := t.dptr, drem := t.drem }
      ∧ writeCursor t = writeCursor s + totalFootprint ms
      ∧ (∀ j, j ≠ 2 → j < frameHdr + writeCursor s → t.tx.read j = s.tx.read j)
      ∧ (∀ p, writeCursor t ≤ p → t.tx.read (frameHdr + p) = 0)
      ∧ PacketsAt t.tx (writeCursor s) ms
      ∧ (∀ m, ms.getLast? = some m → t.drem = 0
          ∧ t.dptr = BitVec.ofNat 8 (writeCursor t - footprint m.data.length + pktHdr + m.data.length))
      ∧ (Memory.wf s.tx → Memory.wf t.tx) ∧ (Memory.within frameSize s.tx → Memory.within frameSize t.tx) := by
  induction ms generalizing s with
  | nil =>
    exact ⟨s, rfl, rfl, rfl, fun _ _ _ => rfl, hzero, trivial, by simp, id, id⟩
  | cons m ms ih =>
    rw [totalFootprint_cons] at h
    obtain ⟨u, hu, hus, hucur, hulow, huzero, hup, huwf, huin⟩ :=
      appendPacket_packetIs m.svc m.cmd m.data s (by omega) hzero
    obtain ⟨t, ht, hts, htcur, htlow, htzero, htp, htlast, htwf, htin⟩ := ih u (by omega) huzero
    have hfp := footprint_ge m.data.length
    refine ⟨t, ?_, ?_, ?_, ?_, htzero, ⟨?_, ?_⟩, ?_, fun hw => htwf (huwf hw), fun hw => htin (huin hw)⟩
    · simp only [appendAll, hu, ht]
    · rw [hts, hus]
    · rw [htcur, hucur, totalFootprint_cons]; omega
    · intro j h2 hj
      rw [htlow j h2 (by omega), hulow j h2 hj]
    · exact packetIs_congr _ _ _ _ _ _ (fun j h1 h2 => htlow j (by simp only [frameHdr] at h1; omega) (by omega)) hup
    · rw [← hucur]; exact htp
    · intro n hn
      cases ms with
      | nil =>
        simp only [List.getLast?_singleton, Option.some.injEq] at hn
        subst hn
        simp only [appendAll, Except.ok.injEq] at ht
        subst ht
        refine ⟨by rw [hus], ?_⟩
        rw [hucur, Nat.add_sub_cancel, hus]
      | cons k ks =>
        rw [List.getLast?_cons_cons] at hn
        exact htlast n hn

/-- A scan of packets packed from `off` up to the bound reads their records (R76, R78). -/
theorem scanFrom_packets (ms : List Message) (f : Memory) (fuel off : Nat) (hfuel : ms.length ≤ fuel)
    (hp : PacketsAt f off ms) : scanFrom f (off + totalFootprint ms) fuel off = recordsFrom off ms := by
  induction ms generalizing fuel off with
  | nil =>
    cases fuel with
    | zero => rfl
    | succ n => simp [scanFrom, totalFootprint, recordsFrom]
  | cons m ms ih =>
    cases fuel with
    | zero => simp at hfuel
    | succ n =>
      obtain ⟨⟨h1, h2, h3, _, _⟩, hrest⟩ := hp
      have hfp := footprint_ge m.data.length
      rw [totalFootprint_cons]
      have hc : BitVec.ofNat 16 m.cmd.toNat = m.cmd := by simp
      simp only [scanFrom, h1, h2, h3, hc, recordsFrom]
      rw [if_pos (by simp only [pktHdr]; omega), if_neg (by simp only [pktHdr]; omega), ← Nat.add_assoc,
        ih n _ (by simpa using hfuel) hrest]

/-! ### The scan of any frame -/

/-- More iterations than the bound allows add nothing (R76: the offset grows by at least 4 each time). -/
theorem scanFrom_fuel (f : Memory) (bound n k off : Nat) (h : bound < off + 4 * (n + 1)) :
    scanFrom f bound (n + k) off = scanFrom f bound n off := by
  induction n generalizing off with
  | zero =>
    cases k with
    | zero => rfl
    | succ k =>
      have : ¬ off + pktHdr ≤ bound := by simp only [pktHdr]; omega
      simp [scanFrom, this]
  | succ n ih =>
    rw [show n + 1 + k = (n + k) + 1 by omega]
    simp only [scanFrom]
    have hfp := footprint_ge (f.read (frameHdr + off)).toNat
    rw [ih _ (by omega)]

/-- Every record of a scan: a whole packet, header and data below the bound, at an offset the packets before it fill. -/
theorem scanFrom_mem (f : Memory) (bound fuel off : Nat) (p : Packet) (h : p ∈ scanFrom f bound fuel off) :
    off ≤ p.off ∧ (p.off - off) % 4 = 0 ∧ p.off + pktHdr + p.size ≤ bound ∧ p.size = (f.read (frameHdr + p.off)).toNat
      ∧ p.svc = f.read (frameHdr + p.off + 1) ∧ p.cmd = BitVec.ofNat 16 (f.readLE (frameHdr + p.off + 2) 2) := by
  induction fuel generalizing off with
  | zero => simp [scanFrom] at h
  | succ n ih =>
    simp only [scanFrom] at h
    by_cases h1 : off + pktHdr ≤ bound
    · rw [if_pos h1] at h
      by_cases h2 : bound < off + pktHdr + (f.read (frameHdr + off)).toNat
      · rw [if_pos h2] at h; simp at h
      · rw [if_neg h2, List.mem_cons] at h
        rcases h with rfl | h
        · exact ⟨Nat.le_refl _, by simp, by simp only; omega, rfl, rfl, rfl⟩
        · obtain ⟨ha, hb, hc, hd⟩ := ih _ h
          have hfp := footprint_ge (f.read (frameHdr + off)).toNat
          have hfm := footprint_mod (f.read (frameHdr + off)).toNat
          exact ⟨by omega, by omega, hc, hd⟩
    · rw [if_neg h1] at h; simp at h

/-- A scan depends on no byte at or beyond the bound (R76). -/
theorem scanFrom_congr (f g : Memory) (bound fuel off : Nat)
    (h : ∀ j, frameHdr ≤ j → j < frameHdr + bound → g.read j = f.read j) :
    scanFrom g bound fuel off = scanFrom f bound fuel off := by
  induction fuel generalizing off with
  | zero => rfl
  | succ n ih =>
    simp only [scanFrom]
    by_cases h1 : off + pktHdr ≤ bound
    · simp only [pktHdr] at h1
      rw [h (frameHdr + off) (by omega) (by omega), h (frameHdr + off + 1) (by omega) (by omega),
        Memory.readLE_congr g f (frameHdr + off + 2) 2 (fun i hi => h _ (by omega) (by omega)), ih]
    · simp [h1]

end Sys2Proof.Machine
end

