-- ==== Sys2Proof/Laws/Exchange.lean ====
section
/-! SUPPORT. What an exchange and a decode do. -/

namespace Sys2Proof.Machine

@[simp] theorem Env.length_receive (bs : List Byte) (e : Env) : (Env.receive bs e).length = bs.length := by
  induction bs generalizing e with
  | nil => rfl
  | cons b bs ih => simp [Env.receive, ih]

theorem Env.nextByte_eq_draw (e : Env) : e.nextByte = e.draw 0 := by
  unfold Env.nextByte Env.draw
  cases h : e.transferIn <;> simp

theorem Env.draw_afterTransfer (e : Env) (b : Byte) (i : Nat) : (e.afterTransfer b).draw i = e.draw (i + 1) := by
  unfold Env.draw
  cases h : e.transferIn <;> simp [h, Nat.add_comm, Nat.add_left_comm]

/-- The `i`-th byte received is the `i`-th draw (R84, R85). -/
theorem Env.getD_receive (bs : List Byte) (e : Env) (i : Nat) (h : i < bs.length) :
    (Env.receive bs e).getD i 0 = e.draw i := by
  induction bs generalizing e i with
  | nil => simp at h
  | cons b bs ih =>
    cases i with
    | zero => simp [Env.receive, Env.nextByte_eq_draw]
    | succ i =>
      have := ih (e.afterTransfer b) i (by simpa using h)
      rw [Env.draw_afterTransfer] at this
      simpa [Env.receive] using this

/-- Sending bytes changes the environment by exactly those `Transfer` calls (R85). -/
theorem Env.onlySends_afterSend (bs : List Byte) (e : Env) : OnlySends bs e (Env.afterSend bs e) := by
  induction bs generalizing e with
  | nil => simp [Env.afterSend, OnlySends]
  | cons b bs ih =>
    obtain ⟨h1, h2, h3, h4, h5⟩ := ih (e.afterTransfer b)
    refine ⟨?_, ?_, ?_, h4, h5⟩
    · rw [Env.afterSend, h1]; simp
    · rw [Env.afterSend, h2]; simp; omega
    · rw [Env.afterSend, h3]; simp

theorem Env.onlySamples_afterSample (e : Env) : OnlySamples e e.afterSample := ⟨rfl, rfl, rfl, rfl, rfl⟩

/-- Byte `i` of RX after an exchange is the `i`-th draw; no byte stands beyond the frame (R84). -/
theorem exchange_rx_read (s : State) (i : Nat) :
    (exchange s).rx.read i = if i < frameSize then s.env.draw i else 0 := by
  rw [exchange_rx, Memory.read_ofBytesFrom, if_pos (Nat.zero_le _), Nat.sub_zero]
  by_cases h : i < frameSize
  · rw [if_pos h, Env.getD_receive _ _ _ (by simpa using h)]
  · rw [if_neg h, List.getD_eq_default]
    rw [Env.length_receive, Memory.length_bytesFrom]; omega

theorem exchange_onlySends (s : State) : OnlySends (s.tx.bytesFrom 0 frameSize) s.env (exchange s).env := by
  rw [exchange_env]; exact Env.onlySends_afterSend _ _

theorem exchange_rx_wf (s : State) : Memory.wf (exchange s).rx := by
  rw [exchange_rx]; exact Memory.wf_ofBytesFrom _ _

theorem exchange_rx_within (s : State) : Memory.within frameSize (exchange s).rx := by
  rw [exchange_rx]; exact Memory.within_ofBytesFrom _ _ (by simp)

/-- An all-zero RX is no valid frame, whatever the magic (R29). -/
theorem validFrame_nil (c : Config) : validFrame c [] = false := by simp [validFrame]

/-! ### Decode -/

/-- Everything `decode()` can do (R90). -/
theorem decodeResponse_cases (s : State) :
    ((s.status.rxv = false ∨ s.status.rxd = true) ∧ decodeResponse s = s)
    ∨ (s.status.rxv = true ∧ s.status.rxd = false
        ∧ ((firstReading s.cfg s.rx = none
              ∧ decodeResponse s = { s with status := { s.status with rxd := true } })
          ∨ ∃ p, firstReading s.cfg s.rx = some p
              ∧ decodeResponse s = { s with status := { s.status with rxd := true }, btnPrev := s.btnCur,
                                            btnCur := maskOfPairs (p.data s.rx) })) := by
  unfold decodeResponse
  cases h1 : s.status.rxv <;> cases h2 : s.status.rxd <;> simp
  cases h3 : firstReading s.cfg s.rx <;> simp

/-- What `decode()` never writes (R93). -/
theorem decodeResponse_frame (s : State) :
    (decodeResponse s).cfg = s.cfg ∧ (decodeResponse s).tx = s.tx ∧ (decodeResponse s).rx = s.rx
      ∧ (decodeResponse s).fb = s.fb ∧ (decodeResponse s).res = s.res ∧ (decodeResponse s).dptr = s.dptr
      ∧ (decodeResponse s).drem = s.drem ∧ (decodeResponse s).seq = s.seq ∧ (decodeResponse s).seqCol = s.seqCol
      ∧ (decodeResponse s).port = s.port ∧ (decodeResponse s).resetIn = s.resetIn ∧ (decodeResponse s).env = s.env
      ∧ (decodeResponse s).status.connected = s.status.connected ∧ (decodeResponse s).status.rxv = s.status.rxv
      ∧ (decodeResponse s).status.busy = s.status.busy ∧ (decodeResponse s).status.fault = s.status.fault
      ∧ (decodeResponse s).status.fcode = s.status.fcode := by
  rcases decodeResponse_cases s with ⟨_, h⟩ | ⟨_, _, ⟨_, h⟩ | ⟨p, _, h⟩⟩ <;> rw [h] <;> simp

theorem getLsbD_pairBit (index pressure : Byte) (i : Nat) :
    (pairBit index pressure).getLsbD i
      = (decide (pressure ≠ 0) && decide (1 ≤ i) && decide (i ≤ 7) && decide (index.toNat = i)) := by
  unfold pairBit
  by_cases h : pressure ≠ 0 ∧ 1 ≤ index.toNat ∧ index.toNat ≤ 7
  · rw [if_pos h]
    obtain ⟨h1, h2, h3⟩ := h
    simp only [BitVec.getLsbD_shiftLeft]
    by_cases hi : index.toNat = i
    · subst hi
      simp only [show index.toNat < 8 by omega, h2, h3, Nat.lt_irrefl, Nat.sub_self]
      simpa using h1
    · by_cases h8 : i < 8
      · by_cases hlt : i < index.toNat
        · simp [hlt, hi]
        · have : i - index.toNat ≠ 0 := by omega
          simp [hi, BitVec.getLsbD_one, this]
      · simp [h8, show ¬ i ≤ 7 by omega]
  · rw [if_neg h]
    rw [show (0 : Byte).getLsbD i = false by simp]
    symm
    rw [Bool.eq_false_iff]
    intro hc
    simp only [Bool.and_eq_true, decide_eq_true_eq] at hc
    exact h ⟨hc.1.1.1, by omega, by omega⟩

/-- Bit `i` of a rebuilt mask: it is 1 exactly when `i` is 1 to 7 and some pair has index `i` and a pressure that is not 0
(R90, R92). -/
theorem getLsbD_maskOfPairs (bs : List Byte) (i : Nat) :
    (maskOfPairs bs).getLsbD i = true
      ↔ 1 ≤ i ∧ i ≤ 7 ∧ ∃ k, k < bs.length / 2 ∧ (bs.getD (2 * k) 0).toNat = i ∧ bs.getD (2 * k + 1) 0 ≠ 0 := by
  induction bs using maskOfPairs.induct with
  | case1 index pressure rest ih =>
    rw [maskOfPairs, BitVec.getLsbD_or, Bool.or_eq_true, ih, getLsbD_pairBit]
    simp only [Bool.and_eq_true, decide_eq_true_eq, List.length_cons]
    constructor
    · rintro (⟨⟨⟨h1, h2⟩, h3⟩, h4⟩ | ⟨h1, h2, k, hk, h3, h4⟩)
      · exact ⟨h2, h3, 0, by omega, by simpa using h4, by simpa using h1⟩
      · refine ⟨h1, h2, k + 1, by omega, ?_, ?_⟩
        · rw [show 2 * (k + 1) = 2 * k + 1 + 1 by omega]; simpa using h3
        · rw [show 2 * (k + 1) + 1 = 2 * k + 1 + 1 + 1 by omega]; simpa using h4
    · rintro ⟨h1, h2, k, hk, h3, h4⟩
      cases k with
      | zero => exact Or.inl ⟨⟨⟨by simpa using h4, h1⟩, h2⟩, by simpa using h3⟩
      | succ k =>
        refine Or.inr ⟨h1, h2, k, by omega, ?_, ?_⟩
        · rw [show 2 * (k + 1) = 2 * k + 1 + 1 by omega] at h3; simpa using h3
        · rw [show 2 * (k + 1) + 1 = 2 * k + 1 + 1 + 1 by omega] at h4; simpa using h4
  | case2 bs h =>
    have hm : maskOfPairs bs = 0 := by
      unfold maskOfPairs
      split
      · exact absurd rfl (h _ _ _)
      · rfl
    have hl : bs.length / 2 = 0 := by
      match bs, h with
      | [], _ => rfl
      | [_], _ => simp
      | a :: b :: r, h => exact absurd rfl (h a b r)
    rw [hm, hl]
    simp

/-- Bit 0 of a rebuilt mask is 0 (R34). -/
theorem maskOfPairs_bit0 (bs : List Byte) : (maskOfPairs bs).getLsbD 0 = false := by
  rw [Bool.eq_false_iff]
  intro h
  have := ((getLsbD_maskOfPairs bs 0).mp h).1
  omega

end Sys2Proof.Machine
end

