-- ==== Sys2Proof/Laws/Framebuffer.lean ====
section
/-! SUPPORT. The laws of the packed framebuffer: what a pixel reads after a write. -/

namespace Sys2Proof

theorem Config.H_eq (c : Config) : c.H = 2 * c.halfH := by
  have := c.fits.heightEven
  unfold Config.halfH
  omega

theorem Config.halfH_pos (c : Config) : 1 ≤ c.halfH := by
  have := c.fits.heightTwo
  unfold Config.halfH
  omega

theorem Config.halfH_le (c : Config) : c.halfH ≤ 76 := by
  have := c.fits.batchFits
  simp only [batchCols, payloadCap, roundup4] at this
  unfold Config.halfH
  omega

end Sys2Proof

namespace Sys2Proof.Machine

theorem inb_iff (c : Config) (x y : Int) : inb c x y = true ↔ 0 ≤ x ∧ x < c.W ∧ 0 ≤ y ∧ y < c.H := by
  simp [inb, and_assoc]

/-- A pixel of the grid lies in a byte of FB (R43). -/
theorem fbidx_lt (c : Config) (x y : Int) (h : inb c x y = true) : fbidx c x y < c.fbBytes := by
  rw [inb_iff] at h
  have hH := c.H_eq
  have hy : y.toNat / 2 < c.halfH := by omega
  have hx : x.toNat + 1 ≤ c.W := by omega
  have := Nat.mul_le_mul_right c.halfH hx
  unfold fbidx Config.fbBytes
  rw [Nat.add_mul, Nat.one_mul] at this
  omega

/-- Two pixels of the grid in the same nibble of the same byte are the same pixel (R43). -/
theorem fbidx_inj (c : Config) (x y x' y' : Int) (h : inb c x y = true) (h' : inb c x' y' = true)
    (hi : fbidx c x y = fbidx c x' y') (hn : lowNibble y = lowNibble y') : x = x' ∧ y = y' := by
  rw [inb_iff] at h h'
  have hH := c.H_eq
  have hy : y.toNat / 2 < c.halfH := by omega
  have hy' : y'.toNat / 2 < c.halfH := by omega
  unfold fbidx at hi
  have hpos : 0 < c.halfH := c.halfH_pos
  have e1 : x.toNat = x'.toNat := by
    have a := congrArg (· / c.halfH) hi
    simpa [Nat.mul_comm _ c.halfH, Nat.mul_add_div hpos, Nat.div_eq_of_lt hy, Nat.div_eq_of_lt hy'] using a
  have e2 : y.toNat / 2 = y'.toNat / 2 := by rw [e1] at hi; omega
  have e3 : y.toNat % 2 = y'.toNat % 2 := by
    simp only [lowNibble] at hn
    rcases Nat.mod_two_eq_zero_or_one y.toNat with p | p <;> rcases Nat.mod_two_eq_zero_or_one y'.toNat with q | q <;>
      simp [p, q] at hn ⊢
  constructor <;> omega

/-- The nibble of a byte that holds a pixel of row parity `low`. -/
def nibble (low : Bool) (b : Byte) : BitVec 4 := if low then b.extractLsb' 0 4 else b.extractLsb' 4 4

theorem nibble_setNibble (low low' : Bool) (b : Byte) (color : BitVec 4) :
    nibble low' (setNibble low b color) = if low' = low then color else nibble low' b := by
  cases low <;> cases low' <;> simp only [nibble, setNibble] <;> simp <;>
  · ext i hi
    obtain rfl | rfl | rfl | rfl : i = 0 ∨ i = 1 ∨ i = 2 ∨ i = 3 := by omega
    all_goals simp

theorem getPx_eq (c : Config) (fb : Memory) (x y : Int) :
    getPx c fb x y = if inb c x y then nibble (lowNibble y) (fb.read (fbidx c x y)) else 0 := by
  unfold getPx nibble
  rfl

/-- A pixel after `set_px`: the color at its place, every other pixel as before (R95). -/
theorem getPx_setPx (c : Config) (fb : Memory) (x y x' y' : Int) (color : BitVec 4) :
    getPx c (setPx c x y color fb) x' y'
      = if x' = x ∧ y' = y ∧ inb c x y = true then color else getPx c fb x' y' := by
  by_cases h : inb c x y = true
  · simp only [setPx, h, if_true, and_true]
    rw [getPx_eq, getPx_eq]
    by_cases h' : inb c x' y' = true
    · simp only [h', if_true, Memory.read_write]
      by_cases hi : fbidx c x' y' = fbidx c x y
      · rw [if_pos hi, nibble_setNibble, hi]
        by_cases hn : lowNibble y' = lowNibble y
        · have := fbidx_inj c x' y' x y h' h hi hn
          rw [if_pos hn, if_pos this]
        · rw [if_neg hn, if_neg]
          rintro ⟨_, rfl⟩
          exact hn rfl
      · rw [if_neg hi, if_neg]
        rintro ⟨rfl, rfl⟩
        exact hi rfl
    · rw [if_neg h', if_neg h', if_neg]
      rintro ⟨rfl, rfl⟩
      exact h' h
  · simp [setPx, h]

theorem setPx_wf (c : Config) (fb : Memory) (x y : Int) (color : BitVec 4) (h : Memory.wf fb) :
    Memory.wf (setPx c x y color fb) := by
  unfold setPx
  split
  · exact Memory.wf_write _ _ _ h
  · exact h

theorem setPx_within (c : Config) (fb : Memory) (x y : Int) (color : BitVec 4) (h : Memory.within c.fbBytes fb) :
    Memory.within c.fbBytes (setPx c x y color fb) := by
  unfold setPx
  split
  · exact Memory.within_write _ _ _ _ h (fbidx_lt c x y ‹_›)
  · exact h

/-- `set_px` writes no byte but the one that holds the pixel. -/
theorem setPx_read_other (c : Config) (fb : Memory) (x y : Int) (color : BitVec 4) (a : Nat)
    (h : inb c x y = true → a ≠ fbidx c x y) : (setPx c x y color fb).read a = fb.read a := by
  unfold setPx
  by_cases hb : inb c x y = true
  · simp only [hb, if_true, Memory.read_write, if_neg (h hb)]
  · simp [hb]

theorem mem_intRange (lo hi v : Int) : v ∈ intRange lo hi ↔ lo ≤ v ∧ v < hi := by
  unfold intRange
  simp only [List.mem_map, List.mem_range]
  constructor
  · rintro ⟨i, hi', rfl⟩; omega
  · rintro ⟨h1, h2⟩; exact ⟨(v - lo).toNat, by omega, by omega⟩

/-- The columns or rows a clipped rectangle covers (R99). -/
theorem mem_clipped (start extent v : Int) (bound : Nat) :
    v ∈ clipped start extent bound ↔ (0 ≤ v ∧ v < bound) ∧ start ≤ v ∧ v < start + extent := by
  unfold clipped
  rw [mem_intRange]
  omega

theorem getPx_fillRow (c : Config) (xs : List Int) (y : Int) (color : BitVec 4) (fb : Memory) (x' y' : Int)
    (h : ∀ x ∈ xs, inb c x y = true) :
    getPx c (fillRow c xs y color fb) x' y' = if x' ∈ xs ∧ y' = y then color else getPx c fb x' y' := by
  induction xs generalizing fb with
  | nil => simp [fillRow]
  | cons x xs ih =>
    have ih' := ih (setPx c x y color fb) (fun z hz => h z (by simp [hz]))
    simp only [fillRow, List.foldl_cons] at ih' ⊢
    rw [ih', getPx_setPx]
    have hx := h x (by simp)
    by_cases h1 : x' = x <;> by_cases h2 : y' = y <;> by_cases h3 : x' ∈ xs <;> simp_all

theorem getPx_fillRows (c : Config) (xs ys : List Int) (color : BitVec 4) (fb : Memory) (x' y' : Int)
    (h : ∀ x ∈ xs, ∀ y ∈ ys, inb c x y = true) :
    getPx c (fillRows c xs ys color fb) x' y' = if x' ∈ xs ∧ y' ∈ ys then color else getPx c fb x' y' := by
  induction ys generalizing fb with
  | nil => simp [fillRows]
  | cons y ys ih =>
    have ih' := ih (fillRow c xs y color fb) (fun x hx z hz => h x hx z (by simp [hz]))
    simp only [fillRows, List.foldl_cons] at ih' ⊢
    rw [ih', getPx_fillRow c xs y color fb x' y' (fun x hx => h x hx y (by simp))]
    by_cases h1 : x' ∈ xs <;> by_cases h2 : y' = y <;> by_cases h3 : y' ∈ ys <;> simp_all

/-- Anything every `set_px` keeps, filling rows keeps. -/
theorem fillRows_keeps (P : Memory → Prop) (c : Config) (xs ys : List Int) (color : BitVec 4)
    (hset : ∀ fb x y, P fb → P (setPx c x y color fb)) (fb : Memory) (h : P fb) : P (fillRows c xs ys color fb) := by
  have row : ∀ (xs : List Int) (y : Int) (fb : Memory), P fb → P (fillRow c xs y color fb) := by
    intro xs y
    induction xs with
    | nil => exact fun fb h => h
    | cons x xs ih => exact fun fb h => ih _ (hset fb x y h)
  induction ys generalizing fb with
  | nil => exact h
  | cons y ys ih => exact ih _ (row xs y fb h)

/-- Both pixels of a byte in every byte: what CLEAR leaves (R96). -/
theorem read_clear (c : Config) (color : BitVec 4) (a : Nat) :
    (Memory.ofBytesFrom 0 (List.replicate c.fbBytes (color ++ color))).read a
      = if a < c.fbBytes then color ++ color else 0 := by
  rw [Memory.read_ofBytesFrom, if_pos (Nat.zero_le _), Nat.sub_zero]
  by_cases h : a < c.fbBytes
  · simp [h]
  · rw [if_neg h, List.getD_eq_default]
    simp; omega

theorem nibble_both (low : Bool) (color : BitVec 4) : nibble low (color ++ color : BitVec 8) = color := by
  revert low color
  decide

end Sys2Proof.Machine
end

