-- ==== Sys2Proof/Laws/Serializer.lean ====
section
/-! SUPPORT. What the serializer builds, and that no capacity or window fault arises inside it (R100, R101, R102). -/

namespace Sys2Proof.Machine

/-! ### The header of a frame -/

theorem beginFrame_tx_read (s : State) (j : Nat) :
    (beginFrame s).tx.read j
      = if 4 ≤ j ∧ j < 12 then BitVec.ofNat 8 (s.cfg.k.deviceId.toNat / 256 ^ (j - 4)) else 0 := by
  rw [beginFrame_tx, Memory.read_writeLE, Memory.read_nil]

theorem beginFrame_tx_wf (s : State) : Memory.wf (beginFrame s).tx :=
  Memory.wf_writeLE _ _ _ _ Memory.wf_nil

theorem beginFrame_tx_within (s : State) : Memory.within frameSize (beginFrame s).tx :=
  Memory.within_writeLE _ _ _ _ _ (Memory.within_nil _) (by simp [frameSize])

theorem writeCursor_beginFrame (s : State) : writeCursor (beginFrame s) = 0 := by
  unfold writeCursor
  rw [beginFrame_tx_read, if_neg (by omega)]
  rfl

theorem finalize_tx_read (s : State) (j : Nat) :
    (finalize s).tx.read j = if j < 2 then BitVec.ofNat 8 (s.cfg.k.magic.toNat / 256 ^ j) else s.tx.read j := by
  rw [finalize_tx, Memory.read_writeLE]
  by_cases h : j < 2
  · rw [if_pos (by omega), if_pos h, Nat.sub_zero]
  · rw [if_neg (by omega), if_neg h]

theorem writeCursor_finalize (s : State) : writeCursor (finalize s) = writeCursor s := by
  unfold writeCursor
  rw [finalize_tx_read, if_neg (by omega)]

/-! ### A whole frame -/

/-- BEGIN_FRAME, a run of packets and FINALIZE: what they leave in TX (R71, R72, R74, R78). -/
theorem frame_ok (ms : List Message) (s : State) (h : totalFootprint ms ≤ payloadCap) :
    ∃ u, appendAll ms (beginFrame s) = .ok u
      ∧ finalize u = { s with tx := (finalize u).tx, dptr := u.dptr, drem := u.drem }
      ∧ HeaderIs (finalize u) (totalFootprint ms) ∧ PacketsAt (finalize u).tx 0 ms
      ∧ (∀ p, totalFootprint ms ≤ p → (finalize u).tx.read (frameHdr + p) = 0)
      ∧ (∀ m, ms.getLast? = some m → u.drem = 0
          ∧ u.dptr = BitVec.ofNat 8 (totalFootprint ms - footprint m.data.length + pktHdr + m.data.length))
      ∧ Memory.wf (finalize u).tx ∧ Memory.within frameSize (finalize u).tx := by
  have hc := writeCursor_beginFrame s
  obtain ⟨u, hu, hus, hcur, hlow, hzero, hp, hlast, hwf, hin⟩ := appendAll_ok ms (beginFrame s) (by omega) (by
    intro p _
    rw [beginFrame_tx_read, if_neg (by simp only [frameHdr]; omega)])
  rw [hc, Nat.zero_add] at hcur
  rw [hc] at hp
  have hcfg : u.cfg = s.cfg := by rw [hus]; rfl
  refine ⟨u, hu, ?_, ⟨?_, ?_, ?_, ?_⟩, ?_, ?_, ?_, ?_, ?_⟩
  · rw [hus]; rfl
  · rw [finalize_tx, Memory.readLE_writeLE, finalize_cfg]
    have := u.cfg.k.magic.isLt
    omega
  · exact (writeCursor_finalize u).trans hcur
  · rw [finalize_tx_read, if_neg (by omega), hlow 3 (by omega) (by rw [hc]; simp only [frameHdr]; omega),
      beginFrame_tx_read, if_neg (by omega)]
  · have hread := Memory.readLE_of_bytes (finalize u).tx 4 8 s.cfg.k.deviceId.toNat (by
      intro i hi
      rw [finalize_tx_read, if_neg (by omega), hlow (4 + i) (by omega) (by rw [hc]; simp only [frameHdr]; omega),
        beginFrame_tx_read, if_pos (by omega), show 4 + i - 4 = i by omega])
    rw [hread, finalize_cfg, hcfg]
    have := s.cfg.k.deviceId.isLt
    omega
  · refine packetsAt_congr ms u.tx (finalize u).tx 0 (fun j h1 _ => ?_) hp
    rw [finalize_tx_read, if_neg (by simp only [frameHdr] at h1; omega)]
  · intro p hpp
    rw [finalize_tx_read, if_neg (by simp only [frameHdr]; omega)]
    exact hzero p (by omega)
  · intro m hm
    rw [← hcur]
    exact hlast m hm
  · exact Memory.wf_writeLE _ _ _ _ (hwf (beginFrame_tx_wf s))
  · exact Memory.within_writeLE _ _ _ _ _ (hin (beginFrame_tx_within s)) (by simp [frameSize])

/-! ### The begin-update frame -/

/-- The "begin update" packet (R65, R100). -/
def beginUpdateMessage (c : Config) : Message := ⟨c.k.displaySvc, c.k.cmdBeginUpdate, descriptor c⟩

theorem length_descriptor (c : Config) : (descriptor c).length = 8 := rfl

theorem formatBeginUpdate_eq (s : State) :
    formatBeginUpdate s = match appendAll [beginUpdateMessage s.cfg] (beginFrame s) with
      | .ok t => .ok (finalize t)
      | .error code => .error code := by
  have e : BitVec.ofNat 8 (descriptor s.cfg).length = 8 := rfl
  simp only [formatBeginUpdate, appendAll, beginUpdateMessage, e]
  cases appendPacket 8 s.cfg.k.displaySvc s.cfg.k.cmdBeginUpdate (descriptor s.cfg) (beginFrame s) <;> rfl

/-- `format_begin_update()` never faults; the frame it builds (R100, R102). -/
theorem formatBeginUpdate_ok (s : State) :
    ∃ t, formatBeginUpdate s = .ok t ∧ t = { s with tx := t.tx, dptr := 12, drem := 0 }
      ∧ HeaderIs t 12 ∧ PacketsAt t.tx 0 [beginUpdateMessage s.cfg]
      ∧ (∀ p, 12 ≤ p → t.tx.read (frameHdr + p) = 0)
      ∧ Memory.wf t.tx ∧ Memory.within frameSize t.tx := by
  have htot : totalFootprint [beginUpdateMessage s.cfg] = 12 := by
    rw [totalFootprint_cons, show (beginUpdateMessage s.cfg).data.length = 8 from rfl]
    rfl
  obtain ⟨u, hu, hus, hh, hp, hz, hlast, hwf, hin⟩ := frame_ok [beginUpdateMessage s.cfg] s (by rw [htot]; decide)
  obtain ⟨hr, hd⟩ := hlast (beginUpdateMessage s.cfg) rfl
  refine ⟨finalize u, ?_, ?_, ?_, hp, ?_, hwf, hin⟩
  · rw [formatBeginUpdate_eq, hu]
  · rw [htot, show (beginUpdateMessage s.cfg).data.length = 8 from rfl] at hd
    have hd' : u.dptr = 12 := hd
    rw [hr, hd'] at hus
    exact hus
  · rw [← htot]; exact hh
  · rw [← htot]; exact hz

/-! ### The batch frames -/

/-- The "set pixels" packet of a column (R66). -/
def columnMessage (c : Config) (fb : Memory) (col : Nat) : Message :=
  ⟨c.k.displaySvc, c.k.cmdSetPixels, columnBytes c fb col⟩

theorem length_columnBytes (c : Config) (fb : Memory) (col : Nat) : (columnBytes c fb col).length = c.halfH := by
  simp [columnBytes]

theorem put_keeps (b : Byte) (s t : State) (h : put b s = .ok t) : t.cfg = s.cfg ∧ t.fb = s.fb := by
  unfold put at h
  split at h
  · cases h
  · cases h; exact ⟨rfl, rfl⟩

theorem putAll_keeps (bs : List Byte) (s t : State) (h : putAll bs s = .ok t) : t.cfg = s.cfg ∧ t.fb = s.fb := by
  induction bs generalizing s with
  | nil => cases h; exact ⟨rfl, rfl⟩
  | cons b bs ih =>
    unfold putAll at h
    split at h
    · rename_i u hu
      have h1 := ih u h
      have h2 := put_keeps b s u hu
      exact ⟨h1.1.trans h2.1, h1.2.trans h2.2⟩
    · cases h

theorem appendPacket_keeps (size svc : Byte) (cmd : BitVec 16) (data : List Byte) (s t : State)
    (h : appendPacket size svc cmd data s = .ok t) : t.cfg = s.cfg ∧ t.fb = s.fb := by
  unfold appendPacket at h
  split at h
  · rename_i u hu
    have h1 := putAll_keeps data u t h
    unfold append at hu
    simp only at hu
    split at hu
    · cases hu
    · cases hu; exact h1
  · cases h

theorem appendColumns_eq (cols : List Nat) (s : State) :
    appendColumns cols s = appendAll (cols.map (columnMessage s.cfg s.fb)) s := by
  induction cols generalizing s with
  | nil => rfl
  | cons col cols ih =>
    have e : BitVec.ofNat 8 (columnBytes s.cfg s.fb col).length = BitVec.ofNat 8 s.cfg.halfH := by
      rw [length_columnBytes]
    simp only [appendColumns, List.map_cons, appendAll]
    show _ = match appendPacket (BitVec.ofNat 8 (columnBytes s.cfg s.fb col).length) s.cfg.k.displaySvc
        s.cfg.k.cmdSetPixels (columnBytes s.cfg s.fb col) s with
      | .ok t => appendAll (cols.map (columnMessage s.cfg s.fb)) t
      | .error code => .error code
    rw [e]
    cases ht : appendPacket (BitVec.ofNat 8 s.cfg.halfH) s.cfg.k.displaySvc s.cfg.k.cmdSetPixels
        (columnBytes s.cfg s.fb col) s with
    | ok t =>
      have hk := appendPacket_keeps _ _ _ _ _ _ ht
      simp only [ih t, hk.1, hk.2]
    | error code => rfl

/-- The packets of the batch at column `col` (R101). -/
def batchMessages (c : Config) (fb : Memory) (col : Nat) : List Message :=
  (batchColumns c col).map (columnMessage c fb)

theorem length_batchColumns (c : Config) (col : Nat) : (batchColumns c col).length = min (col + batchCols) c.W - col := by
  simp [batchColumns]

theorem totalFootprint_columns (c : Config) (fb : Memory) (cols : List Nat) :
    totalFootprint (cols.map (columnMessage c fb)) = cols.length * footprint c.halfH := by
  induction cols with
  | nil => simp [totalFootprint]
  | cons col cols ih =>
    rw [List.map_cons, totalFootprint_cons, ih, List.length_cons, Nat.add_mul, Nat.one_mul,
      show (columnMessage c fb col).data.length = c.halfH from length_columnBytes _ _ _, Nat.add_comm]

theorem totalFootprint_batch_le (c : Config) (fb : Memory) (col : Nat) :
    totalFootprint (batchMessages c fb col) ≤ payloadCap := by
  have h1 := c.fits.batchFits
  have h2 := length_batchColumns c col
  unfold batchMessages
  rw [totalFootprint_columns]
  have h3 : (batchColumns c col).length ≤ 3 := by simp only [batchCols] at h2; omega
  have := Nat.mul_le_mul_right (footprint c.halfH) h3
  unfold footprint pktHdr at *
  unfold Config.halfH at *
  simp only [batchCols] at h1
  omega

/-- `format_batch(c)` never faults, whatever the column; the frame it builds (R101, R102). -/
theorem formatBatch_ok (col : Nat) (s : State) :
    ∃ t, formatBatch col s = .ok t ∧ t = { s with tx := t.tx, dptr := t.dptr, drem := t.drem }
      ∧ HeaderIs t (totalFootprint (batchMessages s.cfg s.fb col))
      ∧ PacketsAt t.tx 0 (batchMessages s.cfg s.fb col)
      ∧ (∀ p, totalFootprint (batchMessages s.cfg s.fb col) ≤ p → t.tx.read (frameHdr + p) = 0)
      ∧ (col < s.cfg.W → t.drem = 0 ∧ t.dptr = BitVec.ofNat 8
          (((batchColumns s.cfg col).length - 1) * footprint s.cfg.halfH + pktHdr + s.cfg.halfH))
      ∧ Memory.wf t.tx ∧ Memory.within frameSize t.tx := by
  obtain ⟨u, hu, hus, hh, hp, hz, hlast, hwf, hin⟩ :=
    frame_ok (batchMessages s.cfg s.fb col) s (totalFootprint_batch_le s.cfg s.fb col)
  refine ⟨finalize u, ?_, hus, hh, hp, hz, ?_, hwf, hin⟩
  · have e := appendColumns_eq (batchColumns s.cfg col) (beginFrame s)
    rw [beginFrame_cfg, beginFrame_fb] at e
    unfold formatBatch
    rw [e]
    unfold batchMessages at hu
    rw [hu]
  · intro hcol
    have hne : batchColumns s.cfg col ≠ [] := by
      intro h0
      have := length_batchColumns s.cfg col
      rw [h0] at this
      simp only [List.length_nil, batchCols] at this
      omega
    obtain ⟨k, hk⟩ := Option.isSome_iff_exists.mp (List.getLast?_isSome.mpr hne)
    obtain ⟨hr, hd⟩ := hlast (columnMessage s.cfg s.fb k) (by unfold batchMessages; rw [List.getLast?_map, hk]; rfl)
    refine ⟨hr, ?_⟩
    rw [finalize_dptr, hd]
    unfold batchMessages
    rw [totalFootprint_columns, show (columnMessage s.cfg s.fb k).data.length = s.cfg.halfH from length_columnBytes _ _ _,
      Nat.sub_mul, Nat.one_mul]

/-- What a state that differs from another in TX and the data window alone keeps. -/
theorem keeps_of_tx_window (s t : State) (h : t = { s with tx := t.tx, dptr := t.dptr, drem := t.drem }) :
    t.cfg = s.cfg ∧ t.rx = s.rx ∧ t.fb = s.fb ∧ t.status = s.status ∧ t.res = s.res ∧ t.btnCur = s.btnCur
      ∧ t.btnPrev = s.btnPrev ∧ t.seq = s.seq ∧ t.seqCol = s.seqCol ∧ t.port = s.port ∧ t.resetIn = s.resetIn
      ∧ t.env = s.env := by
  generalize t.tx = x at h
  generalize t.dptr = y at h
  generalize t.drem = z at h
  subst h
  exact ⟨rfl, rfl, rfl, rfl, rfl, rfl, rfl, rfl, rfl, rfl, rfl, rfl⟩

/-! ### The frame built depends on the configuration and FB alone -/

/-- One state with the TX and the data window of another. -/
def State.onto (t s : State) : State := { t with tx := s.tx, dptr := s.dptr, drem := s.drem }

theorem put_onto (b : Byte) (t s : State) : put b (t.onto s) = (put b s).map t.onto := by
  unfold put
  by_cases h : s.drem = 0
  · rw [if_pos (show (t.onto s).drem = 0 from h), if_pos h]; rfl
  · rw [if_neg (show ¬ (t.onto s).drem = 0 from h), if_neg h]; rfl

theorem putAll_onto (bs : List Byte) (t s : State) : putAll bs (t.onto s) = (putAll bs s).map t.onto := by
  induction bs generalizing s with
  | nil => rfl
  | cons b bs ih =>
    simp only [putAll, put_onto]
    cases put b s with
    | ok u => exact ih u
    | error code => rfl

theorem append_onto (size svc : Byte) (cmd : BitVec 16) (t s : State) :
    append size svc cmd (t.onto s) = (append size svc cmd s).map t.onto := by
  by_cases h : payloadCap < writeCursor s + footprint size.toNat
  · rw [append_overflow _ _ _ s h, append_overflow _ _ _ (t.onto s) h]; rfl
  · simp only [append]
    rw [if_neg (show ¬ payloadCap < writeCursor (t.onto s) + footprint size.toNat from h), if_neg h]; rfl

theorem appendPacket_onto (size svc : Byte) (cmd : BitVec 16) (data : List Byte) (t s : State) :
    appendPacket size svc cmd data (t.onto s) = (appendPacket size svc cmd data s).map t.onto := by
  unfold appendPacket
  rw [append_onto]
  cases append size svc cmd s with
  | ok u => exact putAll_onto data t u
  | error code => rfl

theorem appendAll_onto (ms : List Message) (t s : State) : appendAll ms (t.onto s) = (appendAll ms s).map t.onto := by
  induction ms generalizing s with
  | nil => rfl
  | cons m ms ih =>
    simp only [appendAll, appendPacket_onto]
    cases appendPacket (BitVec.ofNat 8 m.data.length) m.svc m.cmd m.data s with
    | ok u => exact ih u
    | error code => rfl

/-- States alike in configuration and FB build the same batch frame (R101). -/
theorem formatBatch_congr (col : Nat) (s t u v : State) (hc : t.cfg = s.cfg) (hfb : t.fb = s.fb)
    (hu : formatBatch col s = .ok u) (hv : formatBatch col t = .ok v) : v.tx = u.tx := by
  unfold formatBatch at hu hv
  rw [appendColumns_eq, beginFrame_cfg, beginFrame_fb] at hu hv
  rw [hc, hfb] at hv
  have hb : beginFrame t = t.onto (beginFrame s) := by unfold beginFrame State.onto; rw [hc]
  have hcol : batchColumns t.cfg col = batchColumns s.cfg col := by rw [hc]
  rw [hb, appendAll_onto] at hv
  obtain ⟨w, hw, hws, _⟩ := appendAll_ok (batchMessages s.cfg s.fb col) (beginFrame s)
    (by rw [writeCursor_beginFrame, Nat.zero_add]; exact totalFootprint_batch_le s.cfg s.fb col)
    (by
      intro p _
      rw [beginFrame_tx_read, if_neg (by simp only [frameHdr]; omega)])
  unfold batchMessages at hw
  rw [hw] at hu hv
  have hu' : finalize w = u := by simpa using hu
  have hv' : finalize (t.onto w) = v := by simpa [Except.map] using hv
  rw [← hu', ← hv', finalize_tx, finalize_tx]
  have hwc : w.cfg = s.cfg := (keeps_of_tx_window _ _ hws).1
  show w.tx.writeLE 0 2 t.cfg.k.magic.toNat = _
  rw [hwc, hc]

end Sys2Proof.Machine
end

