-- ==== Sys2Proof/Laws/Step.lean ====
section
/-! SUPPORT. Everything a step can do, and everything the push sequencer can do. -/

namespace Sys2Proof.Machine

/-- What an exchange followed by a decode never writes (R84, R93). -/
theorem exchangeAndDecode_frame (s : State) :
    (exchangeAndDecode s).cfg = s.cfg ∧ (exchangeAndDecode s).tx = s.tx ∧ (exchangeAndDecode s).rx = (exchange s).rx
      ∧ (exchangeAndDecode s).fb = s.fb ∧ (exchangeAndDecode s).res = s.res ∧ (exchangeAndDecode s).dptr = s.dptr
      ∧ (exchangeAndDecode s).drem = s.drem ∧ (exchangeAndDecode s).seq = s.seq
      ∧ (exchangeAndDecode s).seqCol = s.seqCol ∧ (exchangeAndDecode s).port = s.port
      ∧ (exchangeAndDecode s).resetIn = s.resetIn ∧ (exchangeAndDecode s).env = (exchange s).env
      ∧ (exchangeAndDecode s).status.connected = s.status.connected
      ∧ (exchangeAndDecode s).status.rxv = validFrame s.cfg (exchange s).rx
      ∧ (exchangeAndDecode s).status.busy = s.status.busy ∧ (exchangeAndDecode s).status.fault = s.status.fault
      ∧ (exchangeAndDecode s).status.fcode = s.status.fcode := by
  have h := decodeResponse_frame (exchange s)
  simp only [exchange_cfg, exchange_tx, exchange_fb, exchange_res, exchange_dptr, exchange_drem, exchange_seq,
    exchange_seqCol, exchange_port, exchange_resetIn, exchange_status] at h
  exact h

/-- The start step of a push never faults (R105, R107). -/
theorem startPush_ok (s : State) :
    ∃ u, formatBeginUpdate s = .ok u
      ∧ startPush s = .ok { exchangeAndDecode u with
          seqCol := 0, seq := .wait, status := { (exchangeAndDecode u).status with busy := true } } := by
  obtain ⟨u, hu, _⟩ := formatBeginUpdate_ok s
  exact ⟨u, hu, by simp only [startPush, hu]⟩

/-- One batch never faults (R102, R106). -/
theorem sendBatch_ok (s : State) :
    ∃ u, formatBatch s.seqCol.toNat s = .ok u ∧ sendBatch s = .ok (advance (exchangeAndDecode u)) := by
  obtain ⟨u, hu, _⟩ := formatBatch_ok s.seqCol.toNat s
  exact ⟨u, hu, by simp only [sendBatch, hu]⟩

/-- A batch step on a false sample: only the sample is drawn (R106). -/
theorem pushBatch_false (s : State) (h : s.env.nextReady = false) : pushBatch s = { s with env := s.env.afterSample } := by
  simp [pushBatch, h]

/-- A batch step on a true sample: one batch goes (R106). -/
theorem pushBatch_true (s : State) (h : s.env.nextReady = true) :
    ∃ u, formatBatch s.seqCol.toNat { s with env := s.env.afterSample } = .ok u
      ∧ pushBatch s = advance (exchangeAndDecode u) := by
  obtain ⟨u, hu, hsend⟩ := sendBatch_ok { s with env := s.env.afterSample }
  exact ⟨u, hu, by simp [pushBatch, h, hsend]⟩

/-- While a push is in progress a step is the sequencer's batch step (R20, R106). -/
theorem step_wait (s : State) (hr : s.resetIn = false) (hs : s.seq = .wait) : step s = .next (pushBatch s) := by
  simp [step, stepBlock, hr, hs]

/-- Outside a push a step is the command port's (R20, R23). -/
theorem step_idle (s : State) (hr : s.resetIn = false) (hs : s.seq = .idle) : step s = portStep s := by
  simp [step, stepBlock, hr, hs]

/-- A run of one more step, when the first answers a next state. -/
theorem run_succ (k : Nat) (s t : State) (h : step s = .next t) :
    Host.Core.run Sys2Proof.core (k + 1) s = Host.Core.run Sys2Proof.core k t := by
  have e : Sys2Proof.core.step s = .next t := h
  simp only [Host.Core.run, e]

/-- What one batch keeps and changes, whatever the state (R106): the sequencer moves, TX, RX, the window, the masks and the
environment are the batch's. -/
theorem pushBatch_sends (s : State) (h : s.env.nextReady = true) :
    ∃ u, formatBatch s.seqCol.toNat { s with env := s.env.afterSample } = .ok u
      ∧ (pushBatch s).cfg = s.cfg ∧ (pushBatch s).tx = u.tx ∧ (pushBatch s).rx = (exchange u).rx
      ∧ (pushBatch s).fb = s.fb ∧ (pushBatch s).res = s.res ∧ (pushBatch s).dptr = u.dptr
      ∧ (pushBatch s).drem = u.drem ∧ (pushBatch s).port = s.port ∧ (pushBatch s).resetIn = s.resetIn
      ∧ (pushBatch s).env = (exchange u).env ∧ u.env = s.env.afterSample
      ∧ (pushBatch s).status.connected = s.status.connected
      ∧ (pushBatch s).status.rxv = validFrame s.cfg (exchange u).rx
      ∧ (pushBatch s).status.fault = s.status.fault ∧ (pushBatch s).status.fcode = s.status.fcode
      ∧ (pushBatch s).btnCur = (exchangeAndDecode u).btnCur ∧ (pushBatch s).btnPrev = (exchangeAndDecode u).btnPrev
      ∧ u.btnCur = s.btnCur ∧ u.btnPrev = s.btnPrev
      ∧ (s.cfg.W ≤ s.seqCol.toNat + batchCols →
          (pushBatch s).seq = .idle ∧ (pushBatch s).seqCol = 0 ∧ (pushBatch s).status.busy = false)
      ∧ (¬ s.cfg.W ≤ s.seqCol.toNat + batchCols →
          (pushBatch s).seq = s.seq ∧ (pushBatch s).seqCol = BitVec.ofNat 12 (s.seqCol.toNat + batchCols)
            ∧ (pushBatch s).status.busy = s.status.busy) := by
  obtain ⟨u, hu, hp⟩ := pushBatch_true s h
  obtain ⟨t, ht, hf, _⟩ := formatBatch_ok s.seqCol.toNat { s with env := s.env.afterSample }
  rw [hu] at ht
  cases ht
  obtain ⟨k1, k2, k3, k4, k5, k6, k7, k8, k9, k10, k11, k12⟩ := keeps_of_tx_window _ _ hf
  obtain ⟨e1, e2, e3, e4, e5, e6, e7, e8, e9, e10, e11, e12, e13, e14, e15, e16, e17⟩ := exchangeAndDecode_frame u
  refine ⟨u, hu, ?_⟩
  rw [hp]
  unfold advance
  rw [e1, e9, k1, k9]
  simp only
  by_cases hw : s.cfg.W ≤ s.seqCol.toNat + batchCols
  · simp only [hw, if_true]
    simp only [e2, e3, e4, e5, e6, e7, e10, e11, e12, e13, e14, e16, e17, k1, k3, k4, k5, k6, k7, k10, k11, k12]
    simp
  · simp only [hw, if_false]
    simp only [e2, e3, e4, e5, e6, e7, e8, e10, e11, e12, e13, e14, e15, e16, e17, k1, k3, k4, k5, k6, k7, k8, k10, k11,
      k12]
    simp

/-- Everything a step that answers a next state can be (R20, R23, R106, R128). -/
theorem step_cases (s t : State) (h : step s = .next t) :
    (s.resetIn = true ∧ t = s.applyReset)
    ∨ (s.resetIn = false ∧ s.seq = .wait ∧ t = pushBatch s)
    ∨ (s.resetIn = false ∧ s.seq = .idle ∧ (s.status.busy = true ∨ s.status.fault = true) ∧ t = s)
    ∨ (s.resetIn = false ∧ s.seq = .idle ∧ s.status.busy = false ∧ s.status.fault = false ∧ s.port = [] ∧ t = s)
    ∨ (s.resetIn = false ∧ s.seq = .idle ∧ s.status.busy = false ∧ s.status.fault = false
        ∧ ∃ cw rest, s.port = cw :: rest
            ∧ ((∃ e, decode cw = .error e ∧ t = State.raise { s with port := rest } .illegalCommand)
              ∨ ∃ i, decode cw = .ok i ∧ exec i { s with port := rest } = .next t)) := by
  unfold step stepBlock at h
  rcases Bool.eq_false_or_eq_true s.resetIn with hr | hr
  · simp only [hr, if_true] at h
    cases h
    exact Or.inl ⟨hr, rfl⟩
  · simp only [hr, Bool.false_eq_true, if_false] at h
    rcases hs : s.seq with _ | _
    · simp only [hs, portStep] at h
      by_cases hbf : s.status.busy = true ∨ s.status.fault = true
      · rw [if_pos (by simpa using hbf)] at h
        cases h
        exact Or.inr (Or.inr (Or.inl ⟨hr, rfl, hbf, rfl⟩))
      · rw [if_neg (by simpa using hbf)] at h
        have hb : s.status.busy = false := by simpa using fun hb => hbf (Or.inl hb)
        have hf : s.status.fault = false := by simpa using fun hf => hbf (Or.inr hf)
        rcases hp : s.port with _ | ⟨cw, rest⟩
        · simp only [hp] at h
          cases h
          exact Or.inr (Or.inr (Or.inr (Or.inl ⟨hr, rfl, hb, hf, rfl, rfl⟩)))
        · simp only [hp, runWord] at h
          refine Or.inr (Or.inr (Or.inr (Or.inr ⟨hr, rfl, hb, hf, cw, rest, rfl, ?_⟩)))
          rcases hd : decode cw with e | i
          · simp only [hd] at h
            cases h
            exact Or.inl ⟨e, rfl, rfl⟩
          · simp only [hd] at h
            exact Or.inr ⟨i, rfl, h⟩
    · simp only [hs] at h
      cases h
      exact Or.inr (Or.inl ⟨hr, rfl, rfl⟩)

end Sys2Proof.Machine
end

