-- ==== Sys2Proof/Laws/Invariant.lean ====
section
/-! SUPPORT. The invariant under each operation of the machine. -/

namespace Sys2Proof.Machine

/-- The part of the invariant about TX and the data window, for a new TX and window (R38, R72, R73, R83). -/
theorem Inv.withTx (s : State) (h : Inv s) (m : Memory) (ptr rem : Byte) (hwf : Memory.wf m) (hin : Memory.within frameSize m)
    (ha : (m.read 2).toNat % 4 = 0) (hc : (m.read 2).toNat ≤ payloadCap)
    (hz : ∀ p, (m.read 2).toNat ≤ p → m.read (frameHdr + p) = 0) (hw : ptr.toNat + rem.toNat ≤ (m.read 2).toNat) :
    Inv { s with tx := m, dptr := ptr, drem := rem } :=
  { h with txForm := hwf, txSize := hin, cursorAligned := ha, cursorFits := hc, beyondZero := hz, windowFits := hw }

/-- The part of the invariant about FB (R40). -/
theorem Inv.withFb (s : State) (h : Inv s) (m : Memory) (hwf : Memory.wf m) (hin : Memory.within s.cfg.fbBytes m) :
    Inv { s with fb := m } :=
  { h with fbForm := hwf, fbSize := hin }

theorem Inv.withRes (s : State) (h : Inv s) (b : Byte) : Inv { s with res := b } := { h with }

theorem Inv.withEnv (s : State) (h : Inv s) (e : Env) : Inv { s with env := e } := { h with }

theorem Inv.withPort (s : State) (h : Inv s) (port : List Word) : Inv { s with port := port } := { h with }

/-- Recording a fault while no push is in progress (R115, R118). -/
theorem Inv.raise (s : State) (h : Inv s) (hb : s.status.busy = false) (code : FaultCode) (hc : code ≠ .none) :
    Inv (s.raise code) :=
  { h with
    faultCode := by simpa using hc
    pushFaultFree := by simp [hb] }

theorem Inv.beginFrame (s : State) (h : Inv s) : Inv (Machine.beginFrame s) := by
  have hc : ((Machine.beginFrame s).tx.read 2).toNat = 0 := writeCursor_beginFrame s
  refine Inv.withTx s h _ 0 0 (beginFrame_tx_wf s) (beginFrame_tx_within s) ?_ ?_ ?_ ?_
  · rw [← beginFrame_tx, hc]
  · rw [← beginFrame_tx, hc]; exact Nat.zero_le _
  · intro p _
    rw [← beginFrame_tx, beginFrame_tx_read, if_neg (by simp only [frameHdr]; omega)]
  · rw [← beginFrame_tx, hc]; decide

theorem Inv.append (s t : State) (size svc : Byte) (cmd : BitVec 16) (h : Inv s)
    (ht : Machine.append size svc cmd s = .ok t) : Inv t := by
  by_cases hcap : payloadCap < writeCursor s + footprint size.toNat
  · rw [append_overflow _ _ _ s hcap] at ht; cases ht
  · obtain ⟨m, hm, hr, hwf, hin⟩ := append_ok size svc cmd s (by omega)
    rw [hm] at ht
    cases ht
    have hfp := footprint_ge size.toNat
    have hcur : (m.read 2).toNat = writeCursor s + footprint size.toNat := by
      rw [hr, if_pos rfl, toNat_ofNat8 _ (by simp only [payloadCap] at hcap; omega)]
    refine Inv.withTx s h _ _ _ (hwf h.txForm) (hin h.txSize) ?_ ?_ ?_ ?_
    · have := h.cursorAligned
      have := footprint_mod size.toNat
      omega
    · omega
    · intro p hp
      rw [hr, if_neg (by simp only [frameHdr]; omega), if_neg (by simp only [pktHdr]; omega)]
      exact h.beyondZero p (by omega)
    · rw [hcur, toNat_ofNat8 _ (by simp only [payloadCap, pktHdr] at *; omega)]
      simp only [pktHdr]
      omega

theorem Inv.put (s t : State) (b : Byte) (h : Inv s) (ht : Machine.put b s = .ok t) : Inv t := by
  unfold Machine.put at ht
  by_cases hd : s.drem = 0
  · rw [if_pos hd] at ht; cases ht
  · rw [if_neg hd] at ht
    cases ht
    have hw := h.windowFits
    have hc := h.cursorFits
    unfold writeCursor at hw hc
    have hr := sub_one_toNat s.drem hd
    have h0 : s.drem.toNat ≠ 0 := fun hb => hd (BitVec.eq_of_toNat_eq (by simpa using hb))
    have hp : (s.dptr + 1).toNat = s.dptr.toNat + 1 := by
      rw [BitVec.toNat_add]; simp only [payloadCap] at hc; simp; omega
    have hcur : ((s.tx.write (frameHdr + s.dptr.toNat) b).read 2) = s.tx.read 2 :=
      Memory.read_write_other _ _ _ _ (by simp only [frameHdr]; omega)
    refine Inv.withTx s h _ _ _ (Memory.wf_write _ _ _ h.txForm) (Memory.within_write _ _ _ _ h.txSize ?_) ?_ ?_ ?_ ?_
    · simp only [frameHdr, frameSize, payloadCap] at *; omega
    · rw [hcur]; exact h.cursorAligned
    · rw [hcur]; exact hc
    · intro p hp'
      rw [hcur] at hp'
      rw [Memory.read_write_other _ _ _ _ (by omega)]
      exact h.beyondZero p hp'
    · rw [hcur, hp, hr]; omega

theorem Inv.finalize (s : State) (h : Inv s) : Inv (Machine.finalize s) := by
  have hc : ((Machine.finalize s).tx.read 2) = s.tx.read 2 := by rw [finalize_tx_read, if_neg (by omega)]
  rw [finalize_tx] at hc
  refine Inv.withTx s h _ s.dptr s.drem (Memory.wf_writeLE _ _ _ _ h.txForm)
    (Memory.within_writeLE _ _ _ _ _ h.txSize (by simp only [frameSize]; omega)) ?_ ?_ ?_ ?_
  · rw [hc]; exact h.cursorAligned
  · rw [hc]; exact h.cursorFits
  · intro p hp
    rw [hc] at hp
    rw [← finalize_tx, finalize_tx_read, if_neg (by simp only [frameHdr]; omega)]
    exact h.beyondZero p hp
  · rw [hc]; exact h.windowFits

theorem Inv.exchange (s : State) (h : Inv s) : Inv (Machine.exchange s) :=
  { h with
    rxForm := exchange_rx_wf s
    rxSize := exchange_rx_within s
    rxvValid := rfl }

theorem Inv.decodeResponse (s : State) (h : Inv s) : Inv (Machine.decodeResponse s) := by
  rcases decodeResponse_cases s with ⟨_, e⟩ | ⟨_, _, ⟨_, e⟩ | ⟨p, _, e⟩⟩ <;> rw [e]
  · exact h
  · exact { h with }
  · exact { h with curBit0 := maskOfPairs_bit0 _, prevBit0 := h.curBit0 }

/-- A state that differs from a good one in TX and a closed data window, TX holding a whole finalized frame. -/
theorem Inv.ofFrame (s t : State) (ms : List Message) (h : Inv s)
    (hs : t = { s with tx := t.tx, dptr := t.dptr, drem := t.drem }) (hh : HeaderIs t (totalFootprint ms))
    (hcap : totalFootprint ms ≤ payloadCap) (hz : ∀ p, totalFootprint ms ≤ p → t.tx.read (frameHdr + p) = 0)
    (hw : t.dptr.toNat + t.drem.toNat ≤ totalFootprint ms) (hwf : Memory.wf t.tx) (hin : Memory.within frameSize t.tx) :
    Inv t := by
  rw [hs]
  have hc := hh.2.1
  refine Inv.withTx s h _ _ _ hwf hin ?_ ?_ ?_ ?_
  · rw [hc]; exact totalFootprint_mod ms
  · rw [hc]; exact hcap
  · rw [hc]; exact hz
  · rw [hc]; exact hw

theorem Inv.formatBeginUpdate (s t : State) (h : Inv s) (ht : Machine.formatBeginUpdate s = .ok t) : Inv t := by
  obtain ⟨u, hu, hus, hh, _, hz, hwf, hin⟩ := formatBeginUpdate_ok s
  rw [hu] at ht
  obtain rfl : u = t := by simpa using ht
  have htot : totalFootprint [beginUpdateMessage s.cfg] = 12 := by
    rw [totalFootprint_cons, show (beginUpdateMessage s.cfg).data.length = 8 from rfl]; rfl
  have hd : u.dptr = 12 ∧ u.drem = 0 := by
    constructor <;> rw [hus]
  refine Inv.ofFrame s u [beginUpdateMessage s.cfg] h (by rw [hus]) ?_ (by rw [htot]; decide) ?_ ?_ hwf hin
  · rw [htot]; exact hh
  · rw [htot]; exact hz
  · rw [htot, hd.1, hd.2]; decide

theorem Inv.formatBatch (s t : State) (col : Nat) (h : Inv s) (hcol : col < s.cfg.W)
    (ht : Machine.formatBatch col s = .ok t) : Inv t := by
  obtain ⟨u, hu, hus, hh, _, hz, hlast, hwf, hin⟩ := formatBatch_ok col s
  rw [hu] at ht
  obtain rfl : u = t := by simpa using ht
  refine Inv.ofFrame s u (batchMessages s.cfg s.fb col) h hus hh (totalFootprint_batch_le _ _ _) hz ?_ hwf hin
  obtain ⟨hr, hd⟩ := hlast hcol
  clear hus
  have htot := totalFootprint_batch_le s.cfg s.fb col
  have hlen := length_batchColumns s.cfg col
  unfold batchMessages at htot ⊢
  rw [totalFootprint_columns] at htot ⊢
  obtain ⟨n, hn⟩ : ∃ n, (batchColumns s.cfg col).length = n + 1 :=
    ⟨(batchColumns s.cfg col).length - 1, by simp only [batchCols] at hlen; omega⟩
  have hfp := footprint_ge s.cfg.halfH
  rw [hn, Nat.add_mul, Nat.one_mul] at htot
  rw [hr, hd, hn, Nat.add_mul, Nat.one_mul, Nat.add_sub_cancel,
    toNat_ofNat8 _ (by simp only [payloadCap, pktHdr] at *; omega)]
  have h0 : (0 : Byte).toNat = 0 := rfl
  simp only [pktHdr, h0]
  omega

theorem Inv.exchangeAndDecode (s : State) (h : Inv s) : Inv (Machine.exchangeAndDecode s) :=
  Inv.decodeResponse _ (Inv.exchange _ h)

/-- The start of a push, from a state with no push in progress and no fault (R105). -/
theorem Inv.startPush (s t : State) (h : Inv s) (hf : s.status.fault = false) (ht : Machine.startPush s = .ok t) : Inv t := by
  obtain ⟨u, hu, hp⟩ := startPush_ok s
  rw [hp] at ht
  cases ht
  have hv := Inv.exchangeAndDecode u (Inv.formatBeginUpdate s u h hu)
  obtain ⟨v, hv', hvs, _⟩ := formatBeginUpdate_ok s
  rw [hu] at hv'
  cases hv'
  have hk := keeps_of_tx_window s u (by rw [hvs])
  have hx := exchangeAndDecode_frame u
  have hW := s.cfg.fits.widthOne
  exact { hv with
    seqBusy := by simp
    seqColIdle := fun hs => by cases hs
    seqColWait := fun _ => by
      show 0 < (Machine.exchangeAndDecode u).cfg.W
      rw [hx.1, hk.1]; exact hW
    seqColStep := rfl
    pushFaultFree := fun _ => by
      show (Machine.exchangeAndDecode u).status.fault = false
      rw [hx.2.2.2.2.2.2.2.2.2.2.2.2.2.2.2.1, hk.2.2.2.1]; exact hf }

/-- The sequencer's move after a batch (R106, R108). -/
theorem Inv.advance (s : State) (h : Inv s) (hs : s.seq = .wait) : Inv (Machine.advance s) := by
  have hcol := h.seqColWait hs
  have hW := s.cfg.fits.widthCoord
  have h3 := h.seqColStep
  unfold Machine.advance
  by_cases hend : s.cfg.W ≤ s.seqCol.toNat + batchCols
  · rw [if_pos hend]
    exact { h with
      seqBusy := by simp
      seqColIdle := fun _ => rfl
      seqColWait := fun hs => by cases hs
      seqColStep := rfl
      pushFaultFree := fun hb => by cases hb }
  · rw [if_neg hend]
    simp only [batchCols] at hend
    have hnat : (BitVec.ofNat 12 (s.seqCol.toNat + batchCols)).toNat = s.seqCol.toNat + 3 := by
      rw [BitVec.toNat_ofNat]; simp only [batchCols]; omega
    exact { h with
      seqColIdle := fun hi => by rw [show s.seq = .idle from hi] at hs; cases hs
      seqColWait := fun _ => by simp only [hnat]; omega
      seqColStep := by simp only [hnat]; omega }

/-- One batch step (R106). -/
theorem Inv.pushBatch (s : State) (h : Inv s) (hs : s.seq = .wait) : Inv (Machine.pushBatch s) := by
  rcases hn : s.env.nextReady with _ | _
  · rw [pushBatch_false s hn]; exact Inv.withEnv s h _
  · obtain ⟨u, hu, hp⟩ := pushBatch_true s hn
    have hv := Inv.exchangeAndDecode u (Inv.formatBatch _ u _ (Inv.withEnv s h s.env.afterSample) (h.seqColWait hs) hu)
    obtain ⟨w, hw, hws, _⟩ := formatBatch_ok s.seqCol.toNat { s with env := s.env.afterSample }
    rw [hu] at hw
    obtain rfl : u = w := by simpa using hw
    rw [hp]
    exact Inv.advance _ hv ((exchangeAndDecode_frame u).2.2.2.2.2.2.2.1.trans
      ((keeps_of_tx_window _ _ hws).2.2.2.2.2.2.2.1.trans hs))

end Sys2Proof.Machine
end

