-- ==== Sys2Proof/Laws/Packing.lean ====
section
/-! SUPPORT. The frame in TX stays a run of whole packets with zero padding under each operation (R63). -/

namespace Sys2Proof.Machine

theorem packetsAt_append (ms ns : List Message) (f : Memory) (off : Nat) :
    PacketsAt f off (ms ++ ns) ↔ PacketsAt f off ms ∧ PacketsAt f (off + totalFootprint ms) ns := by
  induction ms generalizing off with
  | nil => simp [PacketsAt, totalFootprint]
  | cons m ms ih =>
    rw [List.cons_append, totalFootprint_cons, ← Nat.add_assoc]
    simp only [PacketsAt, ih, and_assoc]

/-- A packet of which one data byte is overwritten is a packet with that data (R63, R73). -/
theorem packetIs_write (f : Memory) (off i : Nat) (b svc : Byte) (cmd : BitVec 16) (data : List Byte)
    (hi : i < data.length) (hp : PacketIs f off svc cmd data) :
    PacketIs (f.write (frameHdr + off + pktHdr + i) b) off svc cmd (data.set i b) := by
  obtain ⟨h1, h2, h3, h4, h5⟩ := hp
  have hne : ∀ a, a ≠ frameHdr + off + pktHdr + i → (f.write (frameHdr + off + pktHdr + i) b).read a = f.read a :=
    fun a ha => Memory.read_write_other _ _ _ _ ha
  refine ⟨?_, ?_, ?_, ?_, ?_⟩
  · rw [hne _ (by simp only [pktHdr]; omega), List.length_set, h1]
  · rw [hne _ (by simp only [pktHdr]; omega), h2]
  · rw [← h3]
    exact Memory.readLE_congr _ _ _ _ (fun k hk => hne _ (by simp only [pktHdr]; omega))
  · intro j hj
    rw [List.length_set] at hj
    by_cases hji : j = i
    · subst hji
      rw [Memory.read_write_same]
      simp [hj]
    · rw [hne _ (by omega), h4 j hj]
      simp [Ne.symm hji]
  · intro j hj hr
    rw [List.length_set] at hj hr
    rw [hne _ (by omega), h5 j hj hr]

/-- Packedness speaks of TX and the data window alone. -/
theorem TxIsPacked.congr (s t : State) (h : TxIsPacked s) (htx : t.tx = s.tx) (hp : t.dptr = s.dptr) (hr : t.drem = s.drem) :
    TxIsPacked t := by
  obtain ⟨ms, h1, h2, h3⟩ := h
  exact ⟨ms, by rw [htx]; exact h1, by unfold writeCursor at h2 ⊢; rw [htx]; exact h2, by rw [hp, hr]; exact h3⟩

/-- A frame just begun holds no packet (R71). -/
theorem TxIsPacked.beginFrame (s : State) : TxIsPacked (Machine.beginFrame s) :=
  ⟨[], trivial, writeCursor_beginFrame s, fun h => absurd rfl h⟩

theorem TxIsPacked.append (s t : State) (size svc : Byte) (cmd : BitVec 16) (h : Inv s) (hp : TxIsPacked s)
    (ht : Machine.append size svc cmd s = .ok t) : TxIsPacked t := by
  obtain ⟨ms, hms, hcur, _⟩ := hp
  by_cases hcap : payloadCap < writeCursor s + footprint size.toNat
  · rw [append_overflow _ _ _ s hcap] at ht; cases ht
  · obtain ⟨m, hm, hr, _, _⟩ := append_ok size svc cmd s (by omega)
    rw [hm] at ht
    cases ht
    have hfp := footprint_ge size.toNat
    have hcap' := hcap
    simp only [payloadCap] at hcap'
    have hhead : ∀ k, k < 4 → m.read (frameHdr + writeCursor s + k) = (packetBytes size svc cmd []).getD k 0 := by
      intro k hk
      rw [hr, if_neg (by simp only [frameHdr]; omega), if_pos (by simp only [pktHdr]; omega), Nat.add_sub_cancel_left]
    have hzero : ∀ j, m.read (frameHdr + writeCursor s + pktHdr + j) = 0 := by
      intro j
      rw [hr, if_neg (by simp only [frameHdr, pktHdr]; omega), if_neg (by omega), Nat.add_assoc, Nat.add_assoc]
      exact h.beyondZero _ (by omega)
    have hlen : (List.replicate size.toNat (0 : Byte)).length = size.toNat := List.length_replicate
    refine ⟨ms ++ [⟨svc, cmd, List.replicate size.toNat 0⟩], ?_, ?_, fun _ => ⟨ms, _, rfl, ?_, ?_⟩⟩
    · rw [packetsAt_append, Nat.zero_add, ← hcur]
      refine ⟨packetsAt_congr ms s.tx m 0 (fun j h1 h2 => ?_) hms, ⟨?_, ?_, ?_, ?_, ?_⟩, trivial⟩
      · rw [hr, if_neg (by simp only [frameHdr] at h1; omega), if_neg (by omega)]
      · have := hhead 0 (by omega)
        rw [Nat.add_zero] at this
        rw [this, hlen]; rfl
      · rw [hhead 1 (by omega)]; rfl
      · rw [Memory.readLE_of_bytes m _ 2 cmd.toNat (fun i hi => ?_)]
        · exact Nat.mod_eq_of_lt cmd.isLt
        · rw [Nat.add_assoc, hhead (2 + i) (by omega)]
          obtain rfl | rfl : i = 0 ∨ i = 1 := by omega
          all_goals simp [packetBytes]
      · intro j hj
        rw [hzero]; simp [hlen ▸ hj]
      · intro j _ _
        exact hzero j
    · show (m.read 2).toNat = _
      rw [hr, if_pos rfl, toNat_ofNat8 _ (by omega), totalFootprint_append, hcur, totalFootprint_cons, hlen]
      rfl
    · rw [toNat_ofNat8 _ (by simp only [pktHdr]; omega), hcur]
    · rw [toNat_ofNat8 _ (by simp only [pktHdr]; omega), hcur, hlen]

theorem TxIsPacked.put (s t : State) (b : Byte) (h : Inv s) (hp : TxIsPacked s) (ht : Machine.put b s = .ok t) :
    TxIsPacked t := by
  obtain ⟨ms, hms, hcur, hwin⟩ := hp
  unfold Machine.put at ht
  by_cases hd : s.drem = 0
  · rw [if_pos hd] at ht; cases ht
  · rw [if_neg hd] at ht
    cases ht
    obtain ⟨front, m, rfl, hlo, hhi⟩ := hwin hd
    have hr := sub_one_toNat s.drem hd
    have h0 : s.drem.toNat ≠ 0 := fun hb => hd (BitVec.eq_of_toNat_eq (by simpa using hb))
    have hc := h.cursorFits
    have hw := h.windowFits
    have hq : (s.dptr + 1).toNat = s.dptr.toNat + 1 := by
      rw [BitVec.toNat_add]; simp only [payloadCap] at hc; simp; omega
    rw [packetsAt_append, Nat.zero_add] at hms
    obtain ⟨i, hi⟩ : ∃ i, s.dptr.toNat = totalFootprint front + pktHdr + i := ⟨_, (Nat.add_sub_cancel' hlo).symm⟩
    have haddr : frameHdr + s.dptr.toNat = frameHdr + totalFootprint front + pktHdr + i := by omega
    refine ⟨front ++ [⟨m.svc, m.cmd, m.data.set i b⟩], ?_, ?_, fun _ => ⟨front, _, rfl, ?_, ?_⟩⟩
    · rw [packetsAt_append, Nat.zero_add]
      refine ⟨packetsAt_congr front s.tx _ 0 (fun j _ h2 => ?_) hms.1, ?_, trivial⟩
      · exact Memory.read_write_other _ _ _ _ (by omega)
      · show PacketIs (s.tx.write (frameHdr + s.dptr.toNat) b) _ _ _ _
        rw [haddr]
        exact packetIs_write _ _ _ _ _ _ _ (by omega) hms.2.1
    · unfold writeCursor at hcur ⊢
      rw [Memory.read_write_other _ _ _ _ (by simp only [frameHdr]; omega), hcur, totalFootprint_append,
        totalFootprint_append, totalFootprint_cons, totalFootprint_cons, List.length_set]
    · simp only [hq]; omega
    · simp only [hq, hr, List.length_set]; omega

theorem TxIsPacked.finalize (s : State) (hp : TxIsPacked s) : TxIsPacked (Machine.finalize s) := by
  obtain ⟨ms, hms, hcur, hwin⟩ := hp
  refine ⟨ms, packetsAt_congr ms s.tx _ 0 (fun j h1 _ => ?_) hms, (writeCursor_finalize s).trans hcur, hwin⟩
  rw [finalize_tx_read, if_neg (by simp only [frameHdr] at h1; omega)]

/-- A whole frame with a closed window is packed (R100, R101). -/
theorem TxIsPacked.ofFrame (t : State) (ms : List Message) (hp : PacketsAt t.tx 0 ms) (hh : HeaderIs t (totalFootprint ms))
    (hr : t.drem = 0) : TxIsPacked t :=
  ⟨ms, hp, hh.2.1, fun h => absurd hr h⟩

theorem TxIsPacked.formatBeginUpdate (s t : State) (ht : Machine.formatBeginUpdate s = .ok t) : TxIsPacked t := by
  obtain ⟨u, hu, hus, hh, hp, _⟩ := formatBeginUpdate_ok s
  rw [hu] at ht
  obtain rfl : u = t := by simpa using ht
  refine TxIsPacked.ofFrame u [beginUpdateMessage s.cfg] hp ?_ (by rw [hus])
  rw [totalFootprint_cons, show (beginUpdateMessage s.cfg).data.length = 8 from rfl]
  exact hh

theorem TxIsPacked.formatBatch (s t : State) (col : Nat) (hcol : col < s.cfg.W) (ht : Machine.formatBatch col s = .ok t) :
    TxIsPacked t := by
  obtain ⟨u, hu, _, hh, hp, _, hlast, _, _⟩ := formatBatch_ok col s
  rw [hu] at ht
  obtain rfl : u = t := by simpa using ht
  exact TxIsPacked.ofFrame u (batchMessages s.cfg s.fb col) hp hh (hlast hcol).1

theorem TxIsPacked.exchangeAndDecode (s : State) (hp : TxIsPacked s) : TxIsPacked (Machine.exchangeAndDecode s) := by
  obtain ⟨_, htx, _, _, _, hd, hr, _⟩ := exchangeAndDecode_frame s
  exact hp.congr s _ htx hd hr

/-- The start of a push leaves the begin-update frame in TX (R105). -/
theorem TxIsPacked.startPush (s t : State) (ht : Machine.startPush s = .ok t) : TxIsPacked t := by
  obtain ⟨u, hu, hp⟩ := startPush_ok s
  rw [hp] at ht
  cases ht
  exact (TxIsPacked.exchangeAndDecode u (TxIsPacked.formatBeginUpdate s u hu)).congr _ _ rfl rfl rfl

/-- One batch step leaves the batch frame in TX, or TX as it was (R106). -/
theorem TxIsPacked.pushBatch (s : State) (h : Inv s) (hp : TxIsPacked s) (hs : s.seq = .wait) :
    TxIsPacked (Machine.pushBatch s) := by
  rcases hn : s.env.nextReady with _ | _
  · rw [pushBatch_false s hn]; exact hp.congr s _ rfl rfl rfl
  · obtain ⟨u, hu, _, htx, _, _, _, hd, hr, _⟩ := pushBatch_sends s hn
    exact (TxIsPacked.formatBatch { s with env := s.env.afterSample } u _ (h.seqColWait hs) hu).congr u _ htx hd hr

end Sys2Proof.Machine
end

