-- ==== Sys2Proof/Laws/PerInstr.lean ====
section
/-! SUPPORT. The family EncodedWord: the word of every command holds its op in the low byte and has every reserved-zero bit
0 (R56, R58, R59). -/

namespace Sys2Proof.Laws.EncodedWord

/-- The encoded word is the op and the fields without loss, its low byte is the op, its op is listed with the command's
format, and no bit at or above the format's width is 1. -/
def Statement (i : Instr) : Prop :=
  (encode i).toNat = i.opcode + i.fieldBits ∧ (encode i).toNat % 256 = i.opcode
    ∧ opFormat (opOf (encode i)) = some i.format ∧ (encode i).toNat < 2 ^ formatWidth i.format

theorem of_bounds (i : Instr) (hfield : i.fieldBits % 256 = 0)
    (hlt : i.opcode + i.fieldBits < 2 ^ formatWidth i.format) (hfmt : opFormat (BitVec.ofNat 8 i.opcode) = some i.format) :
    Statement i := by
  have hw : 2 ^ formatWidth i.format ≤ 2 ^ 64 := Nat.pow_le_pow_right (by omega) (formatWidth_le _)
  have hop := i.opcode_lt
  have e : (encode i).toNat = i.opcode + i.fieldBits := by
    unfold encode
    rw [BitVec.toNat_ofNat]
    exact Nat.mod_eq_of_lt (by omega)
  have hm : (encode i).toNat % 256 = i.opcode := by omega
  refine ⟨e, hm, ?_, by omega⟩
  rw [show opOf (encode i) = BitVec.ofNat 8 i.opcode from
    BitVec.eq_of_toNat_eq (by rw [toNat_opOf, hm, BitVec.toNat_ofNat]; omega)]
  exact hfmt

theorem beginFrame : Statement .beginFrame := of_bounds _ (by decide) (by decide) rfl

theorem append (size svc : Byte) (cmd : BitVec 16) : Statement (.append size svc cmd) := by
  have := size.isLt
  have := svc.isLt
  have := cmd.isLt
  refine of_bounds _ ?_ ?_ rfl <;> simp only [Instr.opcode, Instr.fieldBits, Instr.format, formatWidth] <;> omega

theorem putData (byte : Byte) : Statement (.putData byte) := by
  have := byte.isLt
  refine of_bounds _ ?_ ?_ rfl <;> simp only [Instr.opcode, Instr.fieldBits, Instr.format, formatWidth] <;> omega

theorem finalize : Statement .finalize := of_bounds _ (by decide) (by decide) rfl

theorem readTx (index : Byte) : Statement (.readTx index) := by
  have := index.isLt
  refine of_bounds _ ?_ ?_ rfl <;> simp only [Instr.opcode, Instr.fieldBits, Instr.format, formatWidth] <;> omega

theorem exchange : Statement .exchange := of_bounds _ (by decide) (by decide) rfl

theorem readRx (index : Byte) : Statement (.readRx index) := by
  have := index.isLt
  refine of_bounds _ ?_ ?_ rfl <;> simp only [Instr.opcode, Instr.fieldBits, Instr.format, formatWidth] <;> omega

theorem pollReady : Statement .pollReady := of_bounds _ (by decide) (by decide) rfl

theorem decode : Statement .decode := of_bounds _ (by decide) (by decide) rfl

theorem clear (color : BitVec 4) : Statement (.clear color) := by
  have := color.isLt
  refine of_bounds _ ?_ ?_ rfl <;> simp only [Instr.opcode, Instr.fieldBits, Instr.format, formatWidth] <;> omega

theorem setPixel (x y : Int) (color : BitVec 4) : Statement (.setPixel x y color) := by
  have := coordBits_lt x
  have := coordBits_lt y
  have := color.isLt
  refine of_bounds _ ?_ ?_ rfl <;> simp only [Instr.opcode, Instr.fieldBits, Instr.format, formatWidth] <;> omega

theorem getPixel (x y : Int) : Statement (.getPixel x y) := by
  have := coordBits_lt x
  have := coordBits_lt y
  refine of_bounds _ ?_ ?_ rfl <;> simp only [Instr.opcode, Instr.fieldBits, Instr.format, formatWidth] <;> omega

theorem fillRect (x y w h : Int) (color : BitVec 4) : Statement (.fillRect x y w h color) := by
  have := coordBits_lt x
  have := coordBits_lt y
  have := coordBits_lt w
  have := coordBits_lt h
  have := color.isLt
  refine of_bounds _ ?_ ?_ rfl <;> simp only [Instr.opcode, Instr.fieldBits, Instr.format, formatWidth] <;> omega

theorem formatBeginUpdate : Statement .formatBeginUpdate := of_bounds _ (by decide) (by decide) rfl

theorem formatBatch (col : BitVec 12) : Statement (.formatBatch col) := by
  have := col.isLt
  refine of_bounds _ ?_ ?_ rfl <;> simp only [Instr.opcode, Instr.fieldBits, Instr.format, formatWidth] <;> omega

theorem pushFramebuffer : Statement .pushFramebuffer := of_bounds _ (by decide) (by decide) rfl

theorem isPressed (mask : Byte) : Statement (.isPressed mask) := by
  have := mask.isLt
  refine of_bounds _ ?_ ?_ rfl <;> simp only [Instr.opcode, Instr.fieldBits, Instr.format, formatWidth] <;> omega

theorem isDown (mask : Byte) : Statement (.isDown mask) := by
  have := mask.isLt
  refine of_bounds _ ?_ ?_ rfl <;> simp only [Instr.opcode, Instr.fieldBits, Instr.format, formatWidth] <;> omega

theorem isUp (mask : Byte) : Statement (.isUp mask) := by
  have := mask.isLt
  refine of_bounds _ ?_ ?_ rfl <;> simp only [Instr.opcode, Instr.fieldBits, Instr.format, formatWidth] <;> omega

end Sys2Proof.Laws.EncodedWord
end

