-- ==== Sys2Proof/Machine/Assembly.lean ====
section
/-! DEFINITION. Assembly syntax, pseudo-instructions and disassembly (30_encoding.md R68 to R70). No step of the machine
uses this file. -/

namespace Sys2Proof.Machine

/-! Disassembly (R70). -/

/-- The mnemonic of a command (R59). -/
def mnemonicText : Instr → String
  | .beginFrame => "BEGIN_FRAME"
  | .append _ _ _ => "APPEND"
  | .putData _ => "PUT_DATA"
  | .finalize => "FINALIZE"
  | .readTx _ => "READ_TX"
  | .exchange => "EXCHANGE"
  | .readRx _ => "READ_RX"
  | .pollReady => "POLL_READY"
  | .decode => "DECODE"
  | .clear _ => "CLEAR"
  | .setPixel _ _ _ => "SET_PIXEL"
  | .getPixel _ _ => "GET_PIXEL"
  | .fillRect _ _ _ _ _ => "FILL_RECT"
  | .formatBeginUpdate => "FORMAT_BEGIN_UPDATE"
  | .formatBatch _ => "FORMAT_BATCH"
  | .pushFramebuffer => "PUSH_FRAMEBUFFER"
  | .isPressed _ => "IS_PRESSED"
  | .isDown _ => "IS_DOWN"
  | .isUp _ => "IS_UP"

/-- The character of a hex digit, capitals as in the spec's examples. -/
def hexDigit (d : Nat) : Char := if d < 10 then Char.ofNat (48 + d) else Char.ofNat (55 + d)

/-- The lowest `width` hex digits of a number. -/
def hexDigits : Nat → Nat → List Char
  | 0, _ => []
  | width + 1, n => hexDigits width (n / 16) ++ [hexDigit (n % 16)]

/-- A field printed in hex, in as many digits as its width needs (log entry 18). -/
def hexText (width n : Nat) : List Char := '0' :: 'x' :: hexDigits width n

/-- A field printed in decimal. -/
def decText (n : Nat) : List Char := Nat.toDigits 10 n

/-- A coordinate or extent printed in decimal. -/
def coordText (v : Int) : List Char := if v < 0 then '-' :: decText v.natAbs else decText v.natAbs

/-- The operands as they are printed: decimal for coordinates, extents, colors and columns, hex for the rest (R70). -/
def operandTexts : Instr → List (List Char)
  | .beginFrame => []
  | .append size svc cmd => [hexText 2 size.toNat, hexText 2 svc.toNat, hexText 4 cmd.toNat]
  | .putData byte => [hexText 2 byte.toNat]
  | .finalize => []
  | .readTx index => [hexText 2 index.toNat]
  | .exchange => []
  | .readRx index => [hexText 2 index.toNat]
  | .pollReady => []
  | .decode => []
  | .clear color => [decText color.toNat]
  | .setPixel x y color => [coordText x, coordText y, decText color.toNat]
  | .getPixel x y => [coordText x, coordText y]
  | .fillRect x y w h color => [coordText x, coordText y, coordText w, coordText h, decText color.toNat]
  | .formatBeginUpdate => []
  | .formatBatch col => [decText col.toNat]
  | .pushFramebuffer => []
  | .isPressed mask => [hexText 2 mask.toNat]
  | .isDown mask => [hexText 2 mask.toNat]
  | .isUp mask => [hexText 2 mask.toNat]

/-- Operands separated by a comma and a space. -/
def commaSeparated : List (List Char) → List Char
  | [] => []
  | [t] => t
  | t :: u :: ts => t ++ ',' :: ' ' :: commaSeparated (u :: ts)

/-- The assembly text of a command: the mnemonic, then the operands (R68). -/
def commandText (i : Instr) : String :=
  match operandTexts i with
  | [] => mnemonicText i
  | ts => String.ofList ((mnemonicText i).toList ++ ' ' :: commaSeparated ts)

/-- The disassembly of a word; a word that is no command is printed as illegal (R70). -/
def disassemble (cw : Word) : String :=
  match decode cw with
  | .ok i => commandText i
  | .error _ => String.ofList (".illegal ".toList ++ hexText 16 cw.toNat)

/-! Assembly (R68). Operands are decimal or hex with `0x`; a symbolic parameter name stands for its configured value; an
operand outside its field's range is an assembly error, here `none`. -/

/-- The value of a digit. -/
def digitValue (ch : Char) : Option Nat :=
  let n := ch.toNat
  if 48 ≤ n ∧ n ≤ 57 then some (n - 48)
  else if 65 ≤ n ∧ n ≤ 70 then some (n - 55)
  else if 97 ≤ n ∧ n ≤ 102 then some (n - 87)
  else none

/-- The number written by digits after a value read so far. -/
def numberFrom (base acc : Nat) : List Char → Option Nat
  | [] => some acc
  | ch :: rest =>
    match digitValue ch with
    | some d => if d < base then numberFrom base (acc * base + d) rest else none
    | none => none

/-- The number written by one or more digits. -/
def number (base : Nat) : List Char → Option Nat
  | [] => none
  | t => numberFrom base 0 t

/-- The value of a symbolic parameter name (R68). -/
def symbolValue (c : Config) (name : String) : Option Nat :=
  match name with
  | "W" => some c.W
  | "H" => some c.H
  | "MAGIC" => some c.k.magic.toNat
  | "DEVICE_ID" => some c.k.deviceId.toNat
  | "DISPLAY_SVC" => some c.k.displaySvc.toNat
  | "GAMEPAD_SVC" => some c.k.gamepadSvc.toNat
  | "CMD_BEGIN_UPDATE" => some c.k.cmdBeginUpdate.toNat
  | "CMD_SET_PIXELS" => some c.k.cmdSetPixels.toNat
  | "CMD_GET_READING" => some c.k.cmdGetReading.toNat
  | _ => none

/-- An operand without a sign. -/
def unsignedValue (c : Config) (t : List Char) : Option Nat :=
  match t with
  | '0' :: 'x' :: ds => number 16 ds
  | _ =>
    match number 10 t with
    | some n => some n
    | none => symbolValue c (String.ofList t)

/-- An operand of an unsigned field of `n` bits. -/
def fieldOperand (c : Config) (n : Nat) (t : List Char) : Option (BitVec n) :=
  match unsignedValue c t with
  | some v => if v < 2 ^ n then some (BitVec.ofNat n v) else none
  | none => none

/-- An operand of a coordinate or extent field, with an optional leading `-` before a decimal number. -/
def coordOperand (c : Config) (t : List Char) : Option Int :=
  let v : Option Int :=
    match t with
    | '-' :: ds => (number 10 ds).map (fun n => -(n : Int))
    | _ => (unsignedValue c t).map (fun n => (n : Int))
  match v with
  | some x => if coordFits x then some x else none
  | none => none

/-- The command written as a mnemonic and its operands (R68). -/
def assembleOne (c : Config) (mnemonic : String) (ops : List (List Char)) : Option Instr :=
  match mnemonic, ops with
  | "BEGIN_FRAME", [] => some .beginFrame
  | "APPEND", [a, b, d] => do
    return .append (← fieldOperand c 8 a) (← fieldOperand c 8 b) (← fieldOperand c 16 d)
  | "PUT_DATA", [a] => do return .putData (← fieldOperand c 8 a)
  | "FINALIZE", [] => some .finalize
  | "READ_TX", [a] => do return .readTx (← fieldOperand c 8 a)
  | "EXCHANGE", [] => some .exchange
  | "READ_RX", [a] => do return .readRx (← fieldOperand c 8 a)
  | "POLL_READY", [] => some .pollReady
  | "DECODE", [] => some .decode
  | "CLEAR", [a] => do return .clear (← fieldOperand c 4 a)
  | "SET_PIXEL", [a, b, d] => do
    return .setPixel (← coordOperand c a) (← coordOperand c b) (← fieldOperand c 4 d)
  | "GET_PIXEL", [a, b] => do return .getPixel (← coordOperand c a) (← coordOperand c b)
  | "FILL_RECT", [a, b, d, e, f] => do
    return .fillRect (← coordOperand c a) (← coordOperand c b) (← coordOperand c d) (← coordOperand c e)
      (← fieldOperand c 4 f)
  | "FORMAT_BEGIN_UPDATE", [] => some .formatBeginUpdate
  | "FORMAT_BATCH", [a] => do return .formatBatch (← fieldOperand c 12 a)
  | "PUSH_FRAMEBUFFER", [] => some .pushFramebuffer
  | "IS_PRESSED", [a] => do return .isPressed (← fieldOperand c 8 a)
  | "IS_DOWN", [a] => do return .isDown (← fieldOperand c 8 a)
  | "IS_UP", [a] => do return .isUp (← fieldOperand c 8 a)
  | _, _ => none

/-- `XFER`: finalize, exchange, decode (R69). -/
def xfer : List Instr := [.finalize, .exchange, .decode]

/-- `PUT_BYTES`: one PUT_DATA for each byte (R69). -/
def putBytes (bytes : List Byte) : List Instr := bytes.map .putData

/-- The text cut at its commas. -/
def cutAtCommas : List Char → List (List Char)
  | [] => [[]]
  | ch :: rest =>
    match cutAtCommas rest with
    | [] => [[ch]]
    | t :: ts => if ch = ',' then [] :: t :: ts else (ch :: t) :: ts

/-- The operands of a line: cut at commas, blanks dropped; none where nothing is written. -/
def operandsOf (t : List Char) : List (List Char) :=
  let u := t.filter (fun ch => ch != ' ')
  if u = [] then [] else cutAtCommas u

/-- The commands one line of assembly stands for, a pseudo-instruction standing for several (R68, R69). -/
def assemble (c : Config) (line : String) : Option (List Instr) :=
  let mnemonic := line.toList.takeWhile (fun ch => ch != ' ')
  let ops := operandsOf (line.toList.dropWhile (fun ch => ch != ' '))
  match String.ofList mnemonic with
  | "XFER" => if ops = [] then some xfer else none
  | "PUT_BYTES" => if ops = [] then none else (ops.mapM (fieldOperand c 8)).map putBytes
  | m => (assembleOne c m ops).map (fun i => [i])

end Sys2Proof.Machine
end

