-- ==== Sys2Proof/Tests/Slice0.lean ====
section
/-! SUPPORT. The model's own tests, each with the vector of 95_test_vectors.md or the rule its expected result comes from, and
for every statement with hypotheses a state and operands that meet them. -/

set_option maxRecDepth 20000

namespace Sys2Proof.Tests

open Sys2Proof Sys2Proof.Machine

/-! ### The example configuration EX-S (92_eei_decisions.md D33) -/

/-- The example constants. -/
def exK : Constants := ⟨0x7ACD, 0x1122334455667788, 1, 2, 0x0081, 0x0082, 0x1101⟩

/-- EX-S: a 4 by 4 framebuffer. -/
def exS : Config := ⟨4, 4, exK, (fitsCheck_iff 4 4).mp (by decide)⟩

/-- The block of EX-S right after reset. -/
def small : State := State.resetWith exS

/-- The block with the framebuffer of vectors SE3 and PU2. -/
def drawn : State := { small with fb := Memory.ofBytesFrom 0 [0x10, 0x32, 0x54, 0x76, 0x98, 0xBA, 0xDC, 0xFE] }

/-- The block with CONNECTED = 1. -/
def connected : State := { drawn with status := { Status.reset with connected := true } }

/-- The block in a push, before the batch at column 3. -/
def pushing (samples : List Bool) : State :=
  { connected with
    seq := .wait, seqCol := 3, status := { connected.status with busy := true },
    env := { Env.fresh with readyIn := samples } }

/-- A received frame: magic, payload_length, flags and identifier 0, the payload bytes given, then 0. -/
def received (len : Byte) (payload : List Byte) : Memory :=
  Memory.ofBytesFrom 0 ([0xCD, 0x7A, len, 0, 0, 0, 0, 0, 0, 0, 0, 0] ++ payload)

/-- The block with this frame in RX, valid and not decoded. -/
def fresh (len : Byte) (payload : List Byte) (cur : Byte) : State :=
  { small with rx := received len payload, status := { Status.reset with rxv := true }, btnCur := cur }

/-- The state after one step that runs this word, none where the step stops. -/
def after (s : State) (cw : Nat) : Option State :=
  match step (s.withFetchWord 64 cw) with
  | .next t => some t
  | _ => none

/-- Bytes `lo` to `hi - 1` of TX after one step that runs this word. -/
def txAfter (s : State) (cw lo hi : Nat) : Option (List Byte) := (after s cw).map (fun t => t.tx.bytesFrom lo (hi - lo))

/-- The bytes of FB after one step that runs this word. -/
def fbAfter (s : State) (cw : Nat) : Option (List Byte) := (after s cw).map (fun t => t.fb.bytesFrom 0 8)

/-- STATUS after one step that runs this word. -/
def statusAfter (s : State) (cw : Nat) : Option (BitVec 16) := (after s cw).map (fun t => t.hostRead 0)

/-- RES after one step that runs this word. -/
def resAfter (s : State) (cw : Nat) : Option Byte := (after s cw).map State.res

/-! ### Decoding: words of 95_test_vectors.md 2.1, written out from 30_encoding.md R58 and R59 -/

theorem test_decode_beginFrame : decode 0x0000000000000001 = .ok .beginFrame := by decide
theorem test_decode_append : decode 0x0000001101020502 = .ok (.append 5 0x02 0x1101) := by decide
theorem test_decode_putData : decode 0x000000000000A503 = .ok (.putData 0xA5) := by decide
theorem test_decode_finalize : decode 0x0000000000000004 = .ok .finalize := by decide
theorem test_decode_readTx : decode 0x000000000000FB05 = .ok (.readTx 251) := by decide
theorem test_decode_exchange : decode 0x0000000000000008 = .ok .exchange := by decide
theorem test_decode_readRx : decode 0x0000000000000209 = .ok (.readRx 2) := by decide
theorem test_decode_pollReady : decode 0x000000000000000A = .ok .pollReady := by decide
theorem test_decode_decode : decode 0x000000000000000C = .ok .decode := by decide
theorem test_decode_clear : decode 0x0000000000000510 = .ok (.clear 5) := by decide
theorem test_decode_setPixel : decode 0x0000000F800FFF11 = .ok (.setPixel (-1) (-2048) 15) := by decide
theorem test_decode_getPixel : decode 0x000000000007FF12 = .ok (.getPixel 2047 0) := by decide
theorem test_decode_fillRect : decode 0x07002003001FFF13 = .ok (.fillRect (-1) 1 3 2 7) := by decide
theorem test_decode_formatBeginUpdate : decode 0x0000000000000018 = .ok .formatBeginUpdate := by decide
theorem test_decode_formatBatch : decode 0x00000000000FFF19 = .ok (.formatBatch 4095) := by decide
theorem test_decode_pushFramebuffer : decode 0x000000000000001A = .ok .pushFramebuffer := by decide
theorem test_decode_isPressed : decode 0x0000000000000820 = .ok (.isPressed 0x08) := by decide
theorem test_decode_isDown : decode 0x0000000000000221 = .ok (.isDown 0x02) := by decide
theorem test_decode_isUp : decode 0x000000000000FE22 = .ok (.isUp 0xFE) := by decide

/-- Another FILL_RECT, every field apart (2.1). -/
theorem test_decode_fillRect_fields : decode 0x0FFFF7FF00000013 = .ok (.fillRect 0 0 2047 (-1) 15) := by decide

theorem test_decode_illegal_op : decode 0x000000000000001B = .error .reservedOp := by decide
theorem test_decode_illegal_beginFrame_bit8 : decode 0x0000000000000101 = .error .reservedBits := by decide
theorem test_decode_illegal_append_bit40 : decode 0x0000011101020502 = .error .reservedBits := by decide
theorem test_decode_illegal_fillRect_bit60 : decode 0x1000000100100013 = .error .reservedBits := by decide

theorem test_encode_setPixel : encode (.setPixel 1 3 10) = 0x0000000A00300111 := by decide
theorem test_encode_fillRect : encode (.fillRect (-5) (-5) 2047 2047 6) = 0x067FF7FFFFBFFB13 := by decide

theorem test_decodeTableWord : decodeTableWord 64 0x0000000000009F19 = some (.formatBatch 159) := by decide

/-! ### Well-formedness (R57, R68): one ill-formed term for each check -/

theorem test_wf_edges : (Instr.fillRect (-2048) 2047 2047 (-2048) 15).wf = true := by decide
theorem test_wf_setPixel_x_high : (Instr.setPixel 2048 0 1).wf = false := by decide
theorem test_wf_setPixel_x_low : (Instr.setPixel (-2049) 0 1).wf = false := by decide
theorem test_wf_setPixel_y : (Instr.setPixel 0 2048 1).wf = false := by decide
theorem test_wf_getPixel_x : (Instr.getPixel (-2049) 0).wf = false := by decide
theorem test_wf_getPixel_y : (Instr.getPixel 0 (-2049)).wf = false := by decide
theorem test_wf_fillRect_x : (Instr.fillRect 2048 0 0 0 0).wf = false := by decide
theorem test_wf_fillRect_y : (Instr.fillRect 0 2048 0 0 0).wf = false := by decide
theorem test_wf_fillRect_w : (Instr.fillRect 0 0 2048 0 0).wf = false := by decide
theorem test_wf_fillRect_h : (Instr.fillRect 0 0 0 (-2049) 0).wf = false := by decide

/-! ### Assembly and disassembly (R68 to R70, 2.1) -/

theorem test_assemble_fillRect :
    assemble exS "FILL_RECT -1, 1, 3, 2, 7" = some [.fillRect (-1) 1 3 2 7] := by decide
theorem test_assemble_range_error : assemble exS "SET_PIXEL 2048, 0, 1" = none := by decide
theorem test_assemble_parameter : assemble exS "APPEND 0, GAMEPAD_SVC, CMD_GET_READING" = some [.append 0 2 0x1101] := by decide
theorem test_assemble_xfer : assemble exS "XFER" = some [.finalize, .exchange, .decode] := by decide
theorem test_assemble_put_bytes : assemble exS "PUT_BYTES 0xAA, 0xBB" = some [.putData 0xAA, .putData 0xBB] := by decide
theorem test_disassemble_setPixel : disassemble 0x0000000F800FFF11 = "SET_PIXEL -1, -2048, 15" := by decide
theorem test_disassemble_illegal : disassemble 0x000000000001FC05 = ".illegal 0x000000000001FC05" := by decide

/-! ### One step of each command -/

/-- FC1. -/
theorem test_beginFrame : txAfter small 0x01 0 13 = some [0, 0, 0, 0, 0x88, 0x77, 0x66, 0x55, 0x44, 0x33, 0x22, 0x11, 0] := by
  decide

/-- FC2. -/
theorem test_append :
    txAfter small 0x0000001101020502 0 17 = some [0, 0, 12, 0, 0, 0, 0, 0, 0, 0, 0, 0, 5, 2, 1, 0x11, 0]
      ∧ (after small 0x0000001101020502).map (fun t => (t.dptr, t.drem)) = some (4, 5) := by decide

/-- FC8. -/
theorem test_append_overflow : statusAfter small 0x000000008201ED02 = some 0x0280 := by decide

/-- FC3. -/
theorem test_putData :
    txAfter { small with tx := [(2, 12)], dptr := 4, drem := 5 } 0x0303 14 18 = some [0, 0, 3, 0] := by decide

/-- FC6. -/
theorem test_putData_closed : statusAfter small 0x0103 = some 0x0380 := by decide

/-- FC4. -/
theorem test_finalize : txAfter { small with tx := [(2, 12), (12, 5)] } 0x04 0 4 = some [0xCD, 0x7A, 12, 0] := by decide

/-- FC4. -/
theorem test_readTx : resAfter { small with tx := [(0, 0xCD), (1, 0x7A)] } 0x0105 = some 0x7A := by decide

/-- FC11. -/
theorem test_readTx_range : statusAfter small 0xFC05 = some 0x0480 := by decide

/-- The block of EX1, with two bytes of TX set. -/
def exchanging : State :=
  { small with
    tx := [(2, 4), (251, 9)],
    env := { Env.fresh with
      transferIn := [0xCD, 0x7A, 4, 0, 0, 0, 0, 0, 0, 0, 0, 0, 0, 2, 1, 0x11] ++ List.replicate 236 0 } }

/-- EX1: the frame received, and its validity. -/
theorem test_exchange_receives :
    (after exchanging 0x08).map (fun t => (t.rx, t.hostRead 0))
      = some ([(0, 0xCD), (1, 0x7A), (2, 4), (13, 2), (14, 1), (15, 0x11)], 0x0002) := by decide

/-- R84: the frame sent. -/
theorem test_exchange_sends :
    (after exchanging 0x08).map (fun t => (t.env.transfers, t.env.wire.length, t.env.wire[2]?, t.env.wire[251]?))
      = some (252, 252, some 4, some 9) := by decide

/-- W5: a byte-swapped magic is no valid frame. -/
theorem test_validFrame_swapped : validFrame exS (Memory.ofBytesFrom 0 [0x7A, 0xCD, 12]) = false := by decide

/-- EX2. -/
theorem test_readRx : resAfter { small with rx := [(0, 0xCD), (1, 0x7A), (2, 4)] } 0x0209 = some 4 := by decide

/-- EX3. -/
theorem test_readRx_range : statusAfter { small with status := { Status.reset with rxv := true } } 0xFC09 = some 0x0482 := by
  decide

/-- EX6: a true sample sets CONNECTED. -/
theorem test_pollReady : statusAfter { small with env := { Env.fresh with readyIn := [true, false] } } 0x0A = some 0x0001 := by
  decide

/-- EX6: a false sample does not clear it. -/
theorem test_pollReady_false :
    statusAfter { connected with env := { Env.fresh with readyIn := [false] } } 0x0A = some 0x0001 := by decide

/-- DC1 (W6). -/
theorem test_decode_reading :
    (after (fresh 12 [6, 2, 1, 0x11, 3, 0x0A, 5, 0, 1, 1, 0, 0] 0x04) 0x0C).map
      (fun t => (t.btnCur, t.btnPrev, t.hostRead 0)) = some (0x0A, 0x04, 0x0006) := by decide

/-- DC10: data that crosses payload_length ends the scan. -/
theorem test_decode_crossing :
    (after (fresh 8 [6, 2, 1, 0x11, 3, 1, 4, 1, 5, 1] 0x02) 0x0C).map
      (fun t => (t.btnCur, t.btnPrev, t.hostRead 0)) = some (0x02, 0, 0x0006) := by decide

/-- 2.2: a length above 240 is capped, and the scan goes on to the last header below 240. -/
theorem test_scan_capped : ((scan (received 250 [4, 9, 0, 0, 1, 2, 3, 4])).length,
    (scan (received 250 [4, 9, 0, 0, 1, 2, 3, 4])).getLast?.map Packet.off) = (59, some 236) := by decide

/-- W3. -/
theorem test_clear : fbAfter small 0x0510 = some (List.replicate 8 0x55) := by decide

/-- W3: a pixel of an even row. -/
theorem test_setPixel :
    fbAfter { small with fb := Memory.ofBytesFrom 0 (List.replicate 8 0xFF) } 0x0000000000200311
      = some [0xFF, 0xFF, 0xFF, 0xFF, 0xFF, 0xFF, 0xFF, 0xF0] := by decide

/-- W2: a pixel of an odd row. -/
theorem test_setPixel_odd : fbAfter small 0x0000000A00300111 = some [0, 0, 0, 0xA0, 0, 0, 0, 0] := by decide

/-- W2. -/
theorem test_getPixel : resAfter { small with fb := [(3, 0xA0)] } 0x0000000000300112 = some 0x0A := by decide

/-- W1. -/
theorem test_getPixel_outside : resAfter drawn 0x000000000007FF12 = some 0 := by decide

/-- FB6. -/
theorem test_fillRect : fbAfter small 0x07002003001FFF13 = some [0x70, 0x07, 0x70, 0x07, 0, 0, 0, 0] := by decide

/-- FB3: a negative height fills nothing. -/
theorem test_fillRect_empty : fbAfter small (encode (.fillRect 1 1 2 (-1) 5)).toNat = some (List.replicate 8 0) := by decide

/-- SE1. -/
theorem test_formatBeginUpdate :
    txAfter small 0x18 0 24 = some [0xCD, 0x7A, 0x0C, 0, 0x88, 0x77, 0x66, 0x55, 0x44, 0x33, 0x22, 0x11, 8, 1, 0x81, 0, 0, 0, 0, 0,
      4, 0, 4, 0] := by decide

/-- SE4. -/
theorem test_formatBatch :
    txAfter drawn 0x0219 0 29 = some [0xCD, 0x7A, 0x10, 0, 0x88, 0x77, 0x66, 0x55, 0x44, 0x33, 0x22, 0x11, 2, 1, 0x82, 0, 0x98, 0xBA,
      0, 0, 2, 1, 0x82, 0, 0xDC, 0xFE, 0, 0, 0]
      ∧ (after drawn 0x0219).map (fun t => (t.dptr, t.drem)) = some (14, 0) := by decide

/-- FR3. -/
theorem test_formatBatch_range : statusAfter small 0x0419 = some 0x0480 := by decide

/-- PU1. -/
theorem test_push_unconnected : after drawn 0x1A = some drawn := by decide

/-- PU4: the start step makes one exchange and waits. -/
theorem test_push_starts :
    (after { connected with env := { Env.fresh with transferIn := List.replicate 252 0 } } 0x1A).map
      (fun t => (t.hostRead 0, t.seq, t.seqCol, t.env.transfers, t.env.wire.take 3)) = some (0x0009, .wait, 0, 252, [0xCD, 0x7A, 12]) := by
  decide

/-- PU2: the last batch, of one column, ends the push. -/
theorem test_push_ends :
    (match step { pushing [true] with env := { Env.fresh with readyIn := [true], transferIn := List.replicate 252 0 } } with
      | .next t => some (t.hostRead 0, t.seq, t.seqCol, t.tx.read 2)
      | _ => none) = some (0x0001, .idle, 0, 8) := by decide

/-- PU4: on a false sample the push is held, and so is the word on the port. -/
theorem test_push_held :
    (match step { pushing [false] with port := [0x12] } with
      | .next t => some (t.hostRead 0, t.seqCol, t.port, t.env.transfers)
      | _ => none) = some (0x0009, 3, [0x12], 0) := by decide

/-- R111, the multi-bit row of 2.7. -/
theorem test_isPressed : resAfter { small with btnCur := 0x06, btnPrev := 0x02 } 0x0620 = some 1 := by decide
theorem test_isDown : resAfter { small with btnCur := 0x06, btnPrev := 0x02 } 0x0621 = some 0 := by decide
theorem test_isDown_edge : resAfter { small with btnCur := 0x06 } 0x0421 = some 1 := by decide
theorem test_isUp : resAfter { small with btnPrev := 0x80 } 0x8022 = some 1 := by decide

/-- FR2: ILLEGAL_COMMAND comes before INDEX_RANGE. -/
theorem test_illegal_first : statusAfter small 0x000000000001FC05 = some 0x0180 := by decide

/-- FR1: a faulted block takes no further word. -/
theorem test_faulted_holds :
    step { small.raise .illegalCommand with port := [1] } = .next { small.raise .illegalCommand with port := [1] } := rfl

/-- FR4, FR5: reset in a push. -/
theorem test_reset_in_push :
    (match step (pushing [false]).assertReset with
      | .next t => some (t.hostRead 0, t.seq, t.seqCol, t.fb)
      | _ => none) = some (0, .idle, 0, []) := by decide

/-- R35: the host port. -/
theorem test_hostRead :
    ({ small with btnCur := 0x0A, btnPrev := 0x04, res := 0x7A } : State).hostRead 2 = 0x040A
      ∧ ({ small with res := 0x7A } : State).hostRead 1 = 0x007A ∧ small.hostRead 3 = 0 := by decide

/-- R11: heights of 154 and odd heights are refused, as are widths of 0 and 2048. -/
theorem test_config_check :
    fitsCheck 160 152 = true ∧ fitsCheck 160 154 = false ∧ fitsCheck 4 3 = false ∧ fitsCheck 0 4 = false
      ∧ fitsCheck 2048 4 = false ∧ fitsCheck 4 0 = false := by decide

/-- The store is canonical: writing 0 removes the entry, and a write goes to its place. -/
theorem test_memory_canonical :
    Memory.write [(1, 5), (3, 6)] 3 0 = [(1, 5)] ∧ Memory.write [(1, 5), (3, 6)] 2 7 = [(1, 5), (2, 7), (3, 6)] := by decide

/-! ### Witnesses: a state and operands that meet the hypotheses of each statement, clause by clause -/

/-- A state that meets the invariant and is not the reset state: masks, RES and STATUS hold something, a word waits. -/
def busyHost : State := { small with btnCur := 0x0A, btnPrev := 0x04, res := 7, port := [0x01, 0x08], seqCol := 0 }

theorem witness_Inv : Inv busyHost where
  txForm := by decide
  txSize := by decide
  rxForm := by decide
  rxSize := by decide
  fbForm := by decide
  fbSize := by decide
  cursorAligned := by decide
  cursorFits := by decide
  beyondZero := fun _ _ => rfl
  windowFits := by decide
  rxvValid := by decide
  seqBusy := by decide
  seqColIdle := by decide
  seqColWait := by decide
  seqColStep := by decide
  curBit0 := by decide
  prevBit0 := by decide
  faultCode := by decide
  pushFaultFree := by decide

/-- The same in a push, where the sequencer's clauses of the invariant are the ones that say something. -/
theorem witness_Inv_push : Inv { pushing [true] with fb := [(0, 0x10)] } where
  txForm := by decide
  txSize := by decide
  rxForm := by decide
  rxSize := by decide
  fbForm := by decide
  fbSize := by decide
  cursorAligned := by decide
  cursorFits := by decide
  beyondZero := fun _ _ => rfl
  windowFits := by decide
  rxvValid := by decide
  seqBusy := by decide
  seqColIdle := by decide
  seqColWait := by decide
  seqColStep := by decide
  curBit0 := by decide
  prevBit0 := by decide
  faultCode := by decide
  pushFaultFree := by decide

theorem witness_EveryStepKeepsTheInvariant : Inv busyHost ∧ ∃ t, step busyHost = .next t := ⟨witness_Inv, _, rfl⟩

/-- One packet of three data bytes appended, one of them put: an open window, and one byte of padding. -/
def packing : State :=
  { small with tx := [(2, 8), (12, 3), (13, 1), (14, 0x99), (16, 0xAA)], dptr := 5, drem := 2, port := [0x0103] }

theorem witness_Inv_packing : Inv packing := by
  have hz : ∀ p, writeCursor packing ≤ p → packing.tx.read (frameHdr + p) = 0 := fun p hp =>
    Memory.read_beyond 20 _ (by decide) _ (by
      have h8 : writeCursor packing = 8 := by decide
      simp only [frameHdr]
      omega)
  constructor
  case beyondZero => exact hz
  all_goals decide

theorem witness_TxIsPacked : TxIsPacked packing := by
  refine ⟨[⟨1, 0x99, [0xAA, 0, 0]⟩], ⟨⟨by decide, by decide, by decide, by decide, fun j h1 h2 => ?_⟩, trivial⟩, by decide,
    fun _ => ⟨[], _, rfl, by decide, by decide⟩⟩
  change 3 ≤ j at h1
  change j < 4 at h2
  obtain rfl : j = 3 := by omega
  decide

/-- A step that puts a byte into the open window. -/
theorem witness_EveryStepKeepsTxPacked : Inv packing ∧ TxIsPacked packing ∧ ∃ t, step packing = .next t :=
  ⟨witness_Inv_packing, witness_TxIsPacked, _, rfl⟩

/-- A scan that finds a packet with a byte of padding. -/
theorem witness_ScannedPacketsOfTxAreAlignedAndPadded :
    Inv packing ∧ TxIsPacked packing ∧ (⟨0, 3, 1, 0x99⟩ : Packet) ∈ scan packing.tx ∧ 3 < roundup4 3 :=
  ⟨witness_Inv_packing, witness_TxIsPacked, by decide, by decide⟩

theorem witness_NoStepStopsTheMachine : Inv busyHost := witness_Inv

theorem witness_StepRunsTheDecodedCommand :
    busyHost.resetIn = false ∧ busyHost.seq = .idle ∧ busyHost.status.busy = false ∧ busyHost.status.fault = false
      ∧ busyHost.port = 0x01 :: [0x08] ∧ decode 0x01 = .ok .beginFrame := by decide

/-- A port with an illegal word of each kind: a reserved op, and a nonzero reserved-zero bit. -/
theorem witness_IllegalWordOnlyFaults :
    (small.resetIn = false ∧ small.seq = .idle ∧ small.status.busy = false ∧ small.status.fault = false)
      ∧ ({ small with port := [0x23] } : State).port = 0x23 :: [] ∧ ReservedOp 0x23
      ∧ ({ small with port := [0x101] } : State).port = 0x101 :: [] ∧ ReservedBitSet 0x101 :=
  ⟨by decide, rfl, by unfold ReservedOp; decide, rfl, .N, 8, by decide, by decide, by decide, by decide⟩

theorem witness_CommandPortAcceptsAndHolds :
    (busyHost.resetIn = false ∧ busyHost.seq = .idle ∧ busyHost.status.busy = false ∧ busyHost.status.fault = false
        ∧ busyHost.port = 0x01 :: [0x08] ∧ ∃ t, step busyHost = .next t)
      ∧ ((pushing [true]).resetIn = false ∧ (pushing [true]).status.busy = true)
      ∧ ((small.raise .dataWindow).resetIn = false ∧ (small.raise .dataWindow).status.fault = true
        ∧ (small.raise .dataWindow).seq = .idle)
      ∧ small.resetIn = false ∧ small.port = [] ∧ small.seq = .idle :=
  ⟨⟨rfl, rfl, rfl, rfl, rfl, _, rfl⟩, by decide, by decide, rfl, rfl, rfl⟩

theorem witness_ResetLeavesTheResetTable : (pushing [true]).assertReset.resetIn = true := rfl

/-- The greatest configuration, and one too wide, one too high, one odd, one empty. -/
theorem witness_IllFormedConfigurationRefused :
    (152 % 2 = 0 ∧ 2 ≤ 152 ∧ 3 * (4 + roundup4 (152 / 2)) ≤ 240 ∧ 1 ≤ 2047 ∧ 2047 ≤ 2047)
      ∧ (2 % 2 = 0 ∧ 2 ≤ 2 ∧ 3 * (4 + roundup4 (2 / 2)) ≤ 240 ∧ 1 ≤ 1 ∧ 1 ≤ 2047)
      ∧ (¬ (2048 ≤ 2047) ∧ ¬ (3 * (4 + roundup4 (154 / 2)) ≤ 240) ∧ ¬ (3 % 2 = 0) ∧ ¬ (1 ≤ 0)) := by decide

/-- A reserved address, and each code of R115 in FCODE. -/
theorem witness_HostPortShowsTheRegisters :
    3 ≤ 3 ∧ [FaultCode.none, .illegalCommand, .appendOverflow, .dataWindow, .indexRange].map
      (fun code => ({ small with status := { small.status with fcode := code } } : State).hostRead 0)
        = [0x000, 0x100, 0x200, 0x300, 0x400] := by decide

theorem witness_DecodeOfEncodeIsTheCommand : (Instr.fillRect (-2048) 2047 (-1) 0 15).wf = true := by decide

theorem witness_EncodeOfDecodeIsTheWord : decode 0x07002003001FFF13 = .ok (.fillRect (-1) 1 3 2 7) := by decide

theorem witness_ReservedEncodingsAreRefused :
    ReservedOp 0x1F ∧ ReservedBitSet 0x1000000100100013 ∧ ¬ ReservedOp 0x01 ∧ ¬ ReservedBitSet 0x01 := by
  refine ⟨by unfold ReservedOp; decide, ⟨.R, 60, by decide, by decide, by decide, by decide⟩, by unfold ReservedOp; decide, ?_⟩
  rintro ⟨f, b, _, hb, _, h⟩
  have : ∀ b : Nat, 8 ≤ b → (0x01 : Word).getLsbD b = false := by
    intro b hb
    rw [show (0x01 : Word) = 1#64 from rfl, BitVec.getLsbD_one]
    simp; omega
  rw [this b hb] at h
  cases h

theorem witness_ByteStoresReadAndWriteFields : 7 < 8 ∧ (3 < 4 ∨ 4 + 8 ≤ 3) ∧ (12 < 4 ∨ 4 + 8 ≤ 12) := by decide

theorem witness_BeginFrameClearsAndStamps : (3 < 4 ∨ 12 ≤ 3) ∧ (12 < 4 ∨ 12 ≤ 12) := by decide

/-- A size that fills the payload exactly, and the least that does not fit. -/
theorem witness_AppendWritesOneHeaderOrFaults :
    (small.tx.read 2).toNat + (4 + roundup4 (236 : Byte).toNat) ≤ 240
      ∧ 240 < (small.tx.read 2).toNat + (4 + roundup4 (237 : Byte).toNat) := by decide

/-- The last byte of the greatest window, and a closed window. -/
theorem witness_PutDataWritesOneByteOrFaults :
    (({ small with dptr := 239, drem := 1 } : State).dptr.toNat + ({ small with dptr := 239, drem := 1 } : State).drem.toNat ≤ 240
        ∧ ({ small with dptr := 239, drem := 1 } : State).drem ≠ 0)
      ∧ small.dptr.toNat + small.drem.toNat ≤ 240 ∧ small.drem = 0 := by decide

theorem witness_PutDataPastTxStops :
    ({ small with dptr := 240, drem := 1 } : State).drem ≠ 0 ∧ 252 ≤ 12 + ({ small with dptr := 240, drem := 1 } : State).dptr.toNat := by
  decide

theorem witness_FinalizeStampsTheMagic : 2 ≤ 2 := by decide

theorem witness_ReadTxGivesTheByteOrFaults :
    ((251 : Byte).toNat < 252 ∧ Inv busyHost ∧ 12 + (busyHost.tx.read 2).toNat ≤ (251 : Byte).toNat) ∧ 252 ≤ (252 : Byte).toNat :=
  ⟨⟨by decide, witness_Inv, by decide⟩, by decide⟩

theorem witness_ReadRxGivesTheByteOrFaults : (251 : Byte).toNat < 252 ∧ 252 ≤ (252 : Byte).toNat := by decide

/-- Two packets, and one that fills the payload exactly. -/
theorem witness_ScanOfPackedFrameGivesThePackets :
    totalFootprint [⟨1, 0x99, [0xAA, 0xBB, 0xCC]⟩, ⟨2, 0x1101, []⟩] ≤ 240
      ∧ totalFootprint [⟨1, 0x99, List.replicate 236 0xAA⟩] = 240 := by decide

/-- Two frames that differ from payload_length on. -/
theorem witness_ScanIgnoresBytesBeyondPayloadLength :
    (received 4 [0, 2, 1, 0x11, 9]).read 2 = (received 4 [0, 2, 1, 0x11]).read 2
      ∧ ∀ a, 12 ≤ a → a < 12 + min ((received 4 [0, 2, 1, 0x11]).read 2).toNat 240 →
          (received 4 [0, 2, 1, 0x11, 9]).read a = (received 4 [0, 2, 1, 0x11]).read a := by
  refine ⟨by decide, fun a h1 h2 => ?_⟩
  have h : min ((received 4 [0, 2, 1, 0x11]).read 2).toNat 240 = 4 := by decide
  rw [h] at h2
  obtain rfl | rfl | rfl | rfl : a = 12 ∨ a = 13 ∨ a = 14 ∨ a = 15 := by omega
  all_goals decide

theorem witness_ExchangeMovesOneFrameEachWay : 251 < 252 ∧ 252 ≤ 252 := by decide

/-- Nothing fresh; fresh without a reading (DC8); fresh with one behind another packet (DC9). -/
theorem witness_DecodeRebuildsTheMasksOnce :
    small.status.rxv = false
      ∧ ((fresh 8 [2, 2, 2, 0x11, 3, 1, 0, 0] 2).status.rxv = true ∧ (fresh 8 [2, 2, 2, 0x11, 3, 1, 0, 0] 2).status.rxd = false
        ∧ ∀ q ∈ scan (fresh 8 [2, 2, 2, 0x11, 3, 1, 0, 0] 2).rx, ¬ (q.svc = exK.gamepadSvc ∧ q.cmd = exK.cmdGetReading))
      ∧ (scan (fresh 16 [2, 1, 1, 0x11, 4, 1, 0, 0, 2, 2, 1, 0x11, 5, 1, 0, 0] 0).rx
            = [⟨0, 2, 1, 0x1101⟩] ++ ⟨8, 2, 2, 0x1101⟩ :: []
        ∧ (∀ q ∈ [(⟨0, 2, 1, 0x1101⟩ : Packet)], ¬ (q.svc = exK.gamepadSvc ∧ q.cmd = exK.cmdGetReading))
        ∧ (2 : Byte) = exK.gamepadSvc ∧ (0x1101 : BitVec 16) = exK.cmdGetReading) := by decide

theorem witness_ClearFillsEveryPixel :
    7 < exS.W * (exS.H / 2) ∧ exS.W * (exS.H / 2) ≤ 8
      ∧ ((0 : Int) ≤ 3 ∧ (3 : Int) < exS.W ∧ (0 : Int) ≤ 3 ∧ (3 : Int) < exS.H) := by decide

theorem witness_SetPixelWritesOneNibble :
    inb exS 3 3 = true ∧ inb exS 4 0 = false ∧ inb exS 0 (-1) = false ∧ ¬ ((3 : Int) = 3 ∧ (2 : Int) = 3) ∧ 6 ≠ fbidx exS 3 3 := by
  decide

theorem witness_FillRectFillsTheClippedRectangle :
    ∀ x' y' : Int, inb exS x' y' = true → -1 ≤ x' ∧ x' < -1 + 3 ∧ 1 ≤ y' ∧ y' < 1 + 2 → 4 ≠ fbidx exS x' y' := by
  intro x y h hr
  have hi := h
  simp only [inb, Bool.and_eq_true, decide_eq_true_eq] at hi
  unfold fbidx
  have : exS.halfH = 2 := by decide
  rw [this]
  omega

theorem witness_FormatBatchBuildsTheFrameOrFaults : (3 : BitVec 12).toNat < exS.W ∧ exS.W ≤ (4 : BitVec 12).toNat := by decide

theorem witness_SerializerNeverFaults : 3 < exS.W := by decide

theorem witness_PushStartsOrIsSkipped : small.status.connected = false ∧ connected.status.connected = true := by decide

theorem witness_BatchStepWaitsOrSends :
    ((pushing [false]).resetIn = false ∧ (pushing [false]).seq = .wait ∧ (pushing [false]).seqCol.toNat < (pushing [false]).cfg.W
        ∧ (pushing [false]).env.nextReady = false)
      ∧ (pushing [true]).resetIn = false ∧ (pushing [true]).seq = .wait ∧ (pushing [true]).seqCol.toNat < (pushing [true]).cfg.W
      ∧ (pushing [true]).env.nextReady = true := by decide

theorem witness_PushStallsWhileNotReady :
    (pushing [false, false, true]).resetIn = false ∧ (pushing [false, false, true]).seq = .wait
      ∧ (pushing [false, false, true]).env.readyIn = List.replicate 2 false ++ [true] := by decide

/-- PU3. -/
theorem witness_PushSendsEveryBatchOnce :
    connected.status.connected = true ∧ connected.resetIn = false
      ∧ ({ connected with env := { Env.fresh with readyIn := [false, false, true, false, true] } } : State).env.readyIn
          = [false, false, true, false, true] ++ []
      ∧ [false, false, true, false, true].count true = batchesFrom exS 0
      ∧ [false, false, true, false, true].getLast? = some true := by decide

theorem witness_PushEndsAfterEnoughReadySamples :
    (pushing [false, true]).resetIn = false ∧ (pushing [false, true]).seq = .wait
      ∧ (pushing [false, true]).seqCol.toNat < (pushing [false, true]).cfg.W
      ∧ batchesFrom (pushing [false, true]).cfg (pushing [false, true]).seqCol.toNat ≤ (pushing [false, true]).env.readyIn.count true := by
  decide

theorem witness_ButtonQueriesAnswerTheFormulas : Inv busyHost ∧ (1 : Byte) = 1 := ⟨witness_Inv, rfl⟩

theorem witness_EdgesExcludeEachOther :
    ∃ s t u v : State, exec (.isDown 2) s = .next t ∧ exec (.isUp 2) s = .next u ∧ exec (.isPressed 1) s = .next v
      ∧ s.btnCur = s.btnPrev ∧ s.btnCur.getLsbD 0 = false :=
  ⟨{ small with btnCur := 2, btnPrev := 2 }, _, _, _, rfl, rfl, rfl, rfl, by decide⟩

theorem witness_FaultsArePrecise :
    ∃ t, exec (.readTx 252) small = .next t ∧ small.status.fault = false ∧ t.status.fault = true :=
  ⟨_, rfl, rfl, rfl⟩

theorem witness_ConnectedIsSetByPollAlone :
    (∃ t, exec .pollReady small = .next t)
      ∧ ((∃ t, step connected = .next t) ∧ connected.resetIn = false ∧ connected.status.connected = true)
      ∧ ((∃ t, step connected.assertReset = .next t) ∧ connected.assertReset.resetIn = true)
      ∧ (∃ t, step (pushing [true]) = .next t) ∧ (pushing [true]).resetIn = false ∧ (pushing [true]).seq = .wait :=
  ⟨⟨_, rfl⟩, ⟨⟨_, rfl⟩, rfl, rfl⟩, ⟨⟨_, rfl⟩, rfl⟩, ⟨_, rfl⟩, rfl, rfl⟩

theorem witness_MasksChangeOnlyByDecoding :
    (∃ t, exec .exchange small = .next t) ∧ Instr.exchange ≠ .decode ∧ Instr.exchange ≠ .pushFramebuffer :=
  ⟨⟨_, rfl⟩, by decide, by decide⟩

theorem witness_TransportIsTouchedOnlyByExchange :
    (∃ t, exec .pollReady small = .next t) ∧ Instr.pollReady ≠ .exchange ∧ Instr.pollReady ≠ .pushFramebuffer :=
  ⟨⟨_, rfl⟩, by decide, by decide⟩

theorem witness_FramebufferChangesOnlyByDrawing :
    ((∃ t, exec .pushFramebuffer connected = .next t) ∧ (∀ c, Instr.pushFramebuffer ≠ .clear c)
        ∧ (∀ x y c, Instr.pushFramebuffer ≠ .setPixel x y c) ∧ ∀ x y w h c, Instr.pushFramebuffer ≠ .fillRect x y w h c)
      ∧ (∃ t, step (pushing [true]) = .next t) ∧ (pushing [true]).resetIn = false ∧ (pushing [true]).seq = .wait :=
  ⟨⟨⟨_, rfl⟩, by simp, by simp, by simp⟩, ⟨_, rfl⟩, rfl, rfl⟩

theorem witness_ResultChangesOnlyByReads :
    (∃ t, exec .decode small = .next t) ∧ (∀ x y, Instr.decode ≠ .getPixel x y) ∧ (∀ x, Instr.decode ≠ .readTx x)
      ∧ (∀ x, Instr.decode ≠ .readRx x) ∧ (∀ m, Instr.decode ≠ .isPressed m) ∧ (∀ m, Instr.decode ≠ .isDown m)
      ∧ ∀ m, Instr.decode ≠ .isUp m :=
  ⟨⟨_, rfl⟩, by simp, by simp, by simp, by simp, by simp, by simp⟩

theorem witness_ConfigurationNeverChanges : ∃ t, step busyHost = .next t := ⟨_, rfl⟩

end Sys2Proof.Tests
end

section
/-! PROOFS. The statements of 00_scope.md: the well-formed configurations, the little-endian fields, the button masks, and a
step that always answers. -/

namespace Sys2Proof

/-! ### Configurations (R11) -/

/-- The conditions of R11 with its parameters written out. -/
theorem fits_iff (W H : Nat) :
    Fits W H ↔ H % 2 = 0 ∧ 2 ≤ H ∧ 3 * (4 + roundup4 (H / 2)) ≤ 240 ∧ 1 ≤ W ∧ W ≤ 2047 :=
  ⟨fun h => ⟨h.heightEven, h.heightTwo, h.batchFits, h.widthOne, h.widthCoord⟩,
    fun ⟨heven, htwo, hbatch, hone, hcoord⟩ => ⟨heven, htwo, hbatch, hone, hcoord⟩⟩

theorem Config.ofParameters_of_fits (W H : Nat) (k : Constants) (h : Fits W H) :
    Config.ofParameters W H k = some ⟨W, H, k, h⟩ :=
  dif_pos ((fitsCheck_iff W H).mpr h)

theorem Config.ofParameters_of_not_fits (W H : Nat) (k : Constants) (h : ¬ Fits W H) :
    Config.ofParameters W H k = none :=
  dif_neg (mt (fitsCheck_iff W H).mp h)

/-- The footprint of one column, `4 + roundup4 (H / 2)`, reaches a third of the payload, 80 bytes, at `H = 152`. -/
theorem batch_fits_iff (H : Nat) (heven : H % 2 = 0) : 3 * (4 + roundup4 (H / 2)) ≤ 240 ↔ H ≤ 152 := by
  unfold roundup4
  omega

/-! ### Button masks (R13) -/

theorem toNat_buttonMask (n : Fin 7) : (buttonMask n).toNat = 2 ^ ((Config.buttonPlace n).val + 1) := by
  have hlt : 2 ^ ((Config.buttonPlace n).val + 1) < 2 ^ 8 :=
    Nat.pow_lt_pow_right (by decide) (by omega)
  rw [buttonMask, BitVec.toNat_shiftLeft, BitVec.toNat_ofNat, Nat.one_mod, Nat.one_shiftLeft, Nat.mod_eq_of_lt hlt]

theorem buttonMask_eq (n : Fin 7) : buttonMask n = BitVec.ofNat 8 (2 ^ ((Config.buttonPlace n).val + 1)) := by
  rw [← toNat_buttonMask, BitVec.ofNat_toNat, BitVec.setWidth_eq]

/-- The mask gives back its bit place, and the places are a permutation of the names. -/
theorem buttonMask_injective : Function.Injective buttonMask := by
  intro n m h
  have hpow : 2 ^ ((Config.buttonPlace n).val + 1) = 2 ^ ((Config.buttonPlace m).val + 1) := by
    rw [← toNat_buttonMask, ← toNat_buttonMask, h]
  have hplace := Nat.pow_right_injective le_rfl hpow
  exact Config.buttonPlace.injective (Fin.ext (by omega))

/-- Every bit place from 1 to 7 is some name's, as the permutation is onto. -/
theorem buttonMask_onto (i : Nat) (hone : 1 ≤ i) (hseven : i ≤ 7) : ∃ n, buttonMask n = BitVec.ofNat 8 (2 ^ i) := by
  obtain ⟨n, hn⟩ := Config.buttonPlace.surjective ⟨i - 1, by omega⟩
  refine ⟨n, ?_⟩
  rw [buttonMask_eq, hn, Nat.sub_add_cancel hone]

end Sys2Proof

namespace Sys2Proof.Machine

theorem State.boot_of_fits (W H : Nat) (k : Constants) (h : Fits W H) :
    State.boot W H k = .next (State.resetWith ⟨W, H, k, h⟩) := by
  simp only [State.boot, Config.ofParameters_of_fits W H k h]

theorem State.boot_of_not_fits (W H : Nat) (k : Constants) (h : ¬ Fits W H) :
    State.boot W H k = .refused (.illFormedConfiguration W H) := by
  simp only [State.boot, Config.ofParameters_of_not_fits W H k h]

/-! ### Little-endian fields (R16) -/

/-- MemRead as the weighted sum of R16: the bytes from the second on weigh 256 times as much as in a field of their own. -/
theorem Memory.readLE_eq_sum (m : Memory) (a n : Nat) :
    m.readLE a n = ((List.range n).map (fun k => (m.read (a + k)).toNat * 256 ^ k)).sum := by
  induction n generalizing a with
  | zero => rfl
  | succ n ih =>
    have hweight (k : Nat) : (m.read (a + (k + 1))).toNat * 256 ^ (k + 1) = 256 * ((m.read (a + 1 + k)).toNat * 256 ^ k) := by
      rw [show a + (k + 1) = a + 1 + k by omega]
      ring
    simp [Memory.readLE, ih, List.range_succ_eq_map, Function.comp_def, hweight, List.sum_map_mul_left]

theorem Memory.read_writeLE_inside (m : Memory) (a n v k : Nat) (hk : k < n) :
    ((m.writeLE a n v).read (a + k)).toNat = v / 256 ^ k % 256 := by
  rw [Memory.read_writeLE, if_pos (by omega), Nat.add_sub_cancel_left, BitVec.toNat_ofNat]

theorem Memory.read_writeLE_outside (m : Memory) (a n v j : Nat) (hj : j < a ∨ a + n ≤ j) :
    (m.writeLE a n v).read j = m.read j := by
  rw [Memory.read_writeLE, if_neg (by omega)]

/-! ### Steps (R18) -/

/-- Every command answers a next state where the data window lies inside the payload capacity: only PUT_DATA has a stop, and
it needs an open window past the last byte of TX. -/
theorem exec_answers (i : Instr) (s : State) (h : s.dptr.toNat + s.drem.toNat ≤ payloadCap) :
    ∃ t, exec i s = .next t := by
  cases i with
  | putData byte =>
    have hinside : ¬ (s.drem ≠ 0 ∧ frameSize ≤ frameHdr + s.dptr.toNat) := by
      rintro ⟨hopen, hpast⟩
      have hrem : s.drem.toNat ≠ 0 := fun hzero => hopen (BitVec.eq_of_toNat_eq hzero)
      simp only [payloadCap, frameSize, frameHdr] at h hpast
      omega
    exact ⟨s.finish (put byte s), if_neg hinside⟩
  | _ => exact ⟨_, rfl⟩

theorem runWord_answers (cw : Word) (s : State) (h : s.dptr.toNat + s.drem.toNat ≤ payloadCap) :
    ∃ t, runWord cw s = .next t := by
  rcases hdecode : decode cw with e | i
  · exact ⟨s.raise .illegalCommand, by simp only [runWord, hdecode]⟩
  · obtain ⟨t, ht⟩ := exec_answers i s h
    exact ⟨t, by simp only [runWord, hdecode, ht]⟩

/-- The command port holds, waits, or runs the oldest word in a state whose data window is the same (R23, R49). -/
theorem portStep_answers (s : State) (h : s.dptr.toNat + s.drem.toNat ≤ payloadCap) : ∃ t, portStep s = .next t := by
  unfold portStep
  split
  · exact ⟨s, rfl⟩
  · split
    · exact ⟨s, rfl⟩
    · exact runWord_answers _ _ h

theorem step_reset (s : State) (hr : s.resetIn = true) : step s = .next s.applyReset := by
  simp [step, stepBlock, hr]

/-- Reset and the sequencer always answer; the command port does where the data window lies inside the payload capacity. -/
theorem step_answers (s : State) (h : s.dptr.toNat + s.drem.toNat ≤ payloadCap) : ∃ t, step s = .next t := by
  cases hr : s.resetIn with
  | true => exact ⟨_, step_reset s hr⟩
  | false =>
    cases hs : s.seq with
    | wait => exact ⟨_, step_wait s hr hs⟩
    | idle =>
      rw [step_idle s hr hs]
      exact portStep_answers s h

/-- The data window of a state that meets the invariant lies inside the payload capacity (R38, R72). -/
theorem Inv.window_le_payloadCap (s : State) (h : Inv s) : s.dptr.toNat + s.drem.toNat ≤ payloadCap :=
  h.windowFits.trans h.cursorFits

end Sys2Proof.Machine

namespace Sys2Proof.Proofs

open Sys2Proof.Machine

/-- Settles O6: `State.boot` answers by R11's check. -/
theorem illFormedConfigurationRefused : Obligations.IllFormedConfigurationRefused := by
  intro W H k
  refine ⟨fun hfits => ?_, fun hnot => ?_, batch_fits_iff H⟩
  · have h : Fits W H := (fits_iff W H).mpr hfits
    exact ⟨⟨W, H, k, h⟩, rfl, rfl, rfl, rfl, State.boot_of_fits W H k h⟩
  · exact State.boot_of_not_fits W H k (mt (fits_iff W H).mp hnot)

/-- Settles O13, from what a byte reads after MemWrite. -/
theorem byteStoresReadAndWriteFields : Obligations.ByteStoresReadAndWriteFields :=
  fun m a n v =>
    ⟨m.readLE_eq_sum a n, m.read_writeLE_inside a n v, m.read_writeLE_outside a n v, m.readLE_writeLE a n v⟩

/-- Settles O41: the bit places of the names are a permutation of the seven places. -/
theorem buttonMasksAreTheSevenBits : Obligations.ButtonMasksAreTheSevenBits := by
  refine ⟨fun n m h => buttonMask_injective h, fun b => ⟨?_, ?_⟩⟩
  · rintro ⟨n, rfl⟩
    exact ⟨(Config.buttonPlace n).val + 1, by omega, by omega, buttonMask_eq n⟩
  · rintro ⟨i, hone, hseven, rfl⟩
    exact buttonMask_onto i hone hseven

/-- Settles O44: the invariant keeps the data window inside TX, where no command stops. -/
theorem noStepStopsTheMachine : Obligations.NoStepStopsTheMachine :=
  fun s h => step_answers s h.window_le_payloadCap

end Sys2Proof.Proofs
end

section
/-! PROOFS. The statements of 10_state.md: the command port, CONNECTED, and the host register port. -/

namespace Sys2Proof

/-! ### Kinds of commands -/

/-- The fault a command can record (R115). -/
def Instr.faultCode : Instr → Option Machine.FaultCode
  | .append _ _ _ => some .appendOverflow
  | .putData _ => some .dataWindow
  | .readTx _ => some .indexRange
  | .readRx _ => some .indexRange
  | .formatBatch _ => some .indexRange
  | _ => none

/-- The commands that build the frame in TX (R71 to R74, R103, R104). -/
def Instr.buildsFrame : Instr → Bool
  | .beginFrame => true
  | .append _ _ _ => true
  | .putData _ => true
  | .finalize => true
  | .formatBeginUpdate => true
  | .formatBatch _ => true
  | _ => false

/-- The commands that draw into FB (R96, R97, R99). -/
def Instr.draws : Instr → Bool
  | .clear _ => true
  | .setPixel _ _ _ => true
  | .fillRect _ _ _ _ _ => true
  | _ => false

/-- The commands that answer in RES (R33). -/
def Instr.answersInRes : Instr → Bool
  | .readTx _ => true
  | .readRx _ => true
  | .getPixel _ _ => true
  | .isPressed _ => true
  | .isDown _ => true
  | .isUp _ => true
  | _ => false

end Sys2Proof

namespace Sys2Proof.Machine

/-! ### Everything a command can do -/

/-- How a command that started in `s` can end, by what it writes and by which commands can end so (R18, R19). -/
inductive ExecEnds (i : Instr) (s : State) : State → Prop
  /-- With its fault recorded and nothing else written (R116). -/
  | faulted (code : FaultCode) (hcode : i.faultCode = some code) : ExecEnds i s (s.raise code)
  /-- With TX and the data window written. -/
  | built (hkind : i.buildsFrame = true) (tx : Memory) (dptr drem : Byte) :
      ExecEnds i s { s with tx := tx, dptr := dptr, drem := drem }
  /-- With FB written. -/
  | drawn (hkind : i.draws = true) (fb : Memory) : ExecEnds i s { s with fb := fb }
  /-- With RES written. -/
  | answered (hkind : i.answersInRes = true) (res : Byte) : ExecEnds i s { s with res := res }
  /-- EXCHANGE (R87). -/
  | exchanged (hi : i = .exchange) : ExecEnds i s (exchange s)
  /-- POLL_READY (R89). -/
  | polled (hi : i = .pollReady) : ExecEnds i s { s with
      env := s.env.afterSample
      status := { s.status with connected := s.status.connected || s.env.nextReady } }
  /-- DECODE (R93). -/
  | decoded (hi : i = .decode) : ExecEnds i s (decodeResponse s)
  /-- PUSH_FRAMEBUFFER, unconnected (R105). -/
  | pushSkipped (hi : i = .pushFramebuffer) (hc : s.status.connected = false) : ExecEnds i s s
  /-- PUSH_FRAMEBUFFER, connected: the start step (R105). -/
  | pushStarted (hi : i = .pushFramebuffer) (hc : s.status.connected = true) (t : State) (ht : startPush s = .ok t) :
      ExecEnds i s t

/-- APPEND ends with a packet header written, or past the capacity with its fault (R72). -/
theorem append_ends (size svc : Byte) (cmd : BitVec 16) (s : State) :
    ExecEnds (.append size svc cmd) s (s.finish (append size svc cmd s)) := by
  by_cases hcap : payloadCap < writeCursor s + footprint size.toNat
  · rw [append_overflow size svc cmd s hcap]
    exact .faulted .appendOverflow rfl
  · obtain ⟨m, happend, _⟩ := append_ok size svc cmd s (by omega)
    rw [happend]
    exact .built rfl ..

/-- PUT_DATA ends with one byte written, or with a closed window with its fault (R73). -/
theorem put_ends (b : Byte) (s : State) : ExecEnds (.putData b) s (s.finish (put b s)) := by
  unfold put
  split
  · exact .faulted .dataWindow rfl
  · exact .built rfl ..

/-- READ_TX and READ_RX, `i`, end with a byte in RES, or with their fault (R83, R88). -/
theorem read_ends (i : Instr) (index b : Byte) (s : State) (hi : i.answersInRes = true)
    (hf : i.faultCode = some .indexRange) :
    ExecEnds i s (if indexOutside index then s.raise .indexRange else { s with res := b }) := by
  split
  · exact .faulted .indexRange hf
  · exact .answered hi b

theorem formatBeginUpdate_ends (s : State) : ExecEnds .formatBeginUpdate s (s.finish (formatBeginUpdate s)) := by
  obtain ⟨t, ht, hframe, _⟩ := formatBeginUpdate_ok s
  rw [ht, State.finish_ok, hframe]
  exact .built rfl ..

theorem formatBatch_ends (col : BitVec 12) (s : State) :
    ExecEnds (.formatBatch col) s
      (if s.cfg.W ≤ col.toNat then s.raise .indexRange else s.finish (formatBatch col.toNat s)) := by
  split
  · exact .faulted .indexRange rfl
  · obtain ⟨t, ht, hframe, _⟩ := formatBatch_ok col.toNat s
    rw [ht, State.finish_ok, hframe]
    exact .built rfl ..

theorem push_ends (s : State) :
    ExecEnds .pushFramebuffer s (if s.status.connected then s.finish (startPush s) else s) := by
  split
  next hc =>
    obtain ⟨u, _, hstart⟩ := startPush_ok s
    rw [hstart]
    exact .pushStarted rfl hc _ hstart
  next hc => exact .pushSkipped rfl (by simpa using hc)

/-- PUT_DATA that does not stop the model writes its byte or faults (R81). -/
theorem execPutData_next (b : Byte) (s t : State) (h : execPutData b s = .next t) : t = s.finish (put b s) := by
  unfold execPutData at h
  split at h
  · cases h
  · cases h
    rfl

/-- A command that answers a next state ends in one of the ways of `ExecEnds`. -/
theorem exec_ends (i : Instr) (s t : State) (h : exec i s = .next t) : ExecEnds i s t := by
  cases i with
  | putData b =>
    rw [execPutData_next b s t h]
    exact put_ends b s
  | append size svc cmd => cases h; exact append_ends size svc cmd s
  | readTx index => cases h; exact read_ends _ index _ s rfl rfl
  | readRx index => cases h; exact read_ends _ index _ s rfl rfl
  | formatBeginUpdate => cases h; exact formatBeginUpdate_ends s
  | formatBatch col => cases h; exact formatBatch_ends col s
  | pushFramebuffer => cases h; exact push_ends s
  | exchange => cases h; exact .exchanged rfl
  | pollReady => cases h; exact .polled rfl
  | decode => cases h; exact .decoded rfl
  | beginFrame | finalize => cases h; exact .built rfl ..
  | clear | setPixel | fillRect => cases h; exact .drawn rfl _
  | getPixel | isPressed | isDown | isUp => cases h; exact .answered rfl _

/-! ### What commands and steps never write: the inputs (R23, R39), and CONNECTED (R28) -/

/-- The configuration, the command port, the reset input and CONNECTED are as before. -/
def KeepsInputsAndConnected (s t : State) : Prop := KeepsInputs s t ∧ t.status.connected = s.status.connected

theorem exchangeAndDecode_keepsInputsAndConnected (s : State) : KeepsInputsAndConnected s (exchangeAndDecode s) := by
  obtain ⟨hcfg, _, _, _, _, _, _, _, _, hport, hreset, _, hconnected, _⟩ := exchangeAndDecode_frame s
  exact ⟨⟨hcfg, hport, hreset⟩, hconnected⟩

theorem decodeResponse_keepsInputsAndConnected (s : State) : KeepsInputsAndConnected s (decodeResponse s) := by
  obtain ⟨hcfg, _, _, _, _, _, _, _, _, hport, hreset, _, hconnected, _⟩ := decodeResponse_frame s
  exact ⟨⟨hcfg, hport, hreset⟩, hconnected⟩

/-- The start step of a push reads CONNECTED and does not write it (R105). -/
theorem startPush_keepsInputsAndConnected (s t : State) (h : startPush s = .ok t) : KeepsInputsAndConnected s t := by
  obtain ⟨u, hu, hstart⟩ := startPush_ok s
  rw [hstart] at h
  cases h
  obtain ⟨v, hv, hframe, _⟩ := formatBeginUpdate_ok s
  rw [hu] at hv
  cases hv
  obtain ⟨hcfg, _, _, hstatus, _, _, _, _, _, hport, hreset, _⟩ := keeps_of_tx_window s u (by rw [hframe])
  obtain ⟨⟨hcfg', hport', hreset'⟩, hconnected⟩ := exchangeAndDecode_keepsInputsAndConnected u
  exact ⟨⟨hcfg'.trans hcfg, hport'.trans hport, hreset'.trans hreset⟩,
    hconnected.trans (congrArg Status.connected hstatus)⟩

/-- A batch step draws its sample without writing CONNECTED (R28, R106). -/
theorem pushBatch_keepsInputsAndConnected (s : State) : KeepsInputsAndConnected s (pushBatch s) := by
  cases hn : s.env.nextReady with
  | false =>
    rw [pushBatch_false s hn]
    exact ⟨⟨rfl, rfl, rfl⟩, rfl⟩
  | true =>
    obtain ⟨_, _, hcfg, _, _, _, _, _, _, hport, hreset, _, _, hconnected, _⟩ := pushBatch_sends s hn
    exact ⟨⟨hcfg, hport, hreset⟩, hconnected⟩

/-- Every command keeps the inputs and CONNECTED, but for CONNECTED under POLL_READY. -/
theorem exec_keepsInputsAndConnected (i : Instr) (s t : State) (h : exec i s = .next t) (hi : i ≠ .pollReady) :
    KeepsInputsAndConnected s t := by
  cases exec_ends i s t h with
  | polled hpoll => exact absurd hpoll hi
  | decoded => exact decodeResponse_keepsInputsAndConnected s
  | pushStarted _ _ _ ht => exact startPush_keepsInputsAndConnected s t ht
  | faulted | built | drawn | answered | exchanged | pushSkipped => exact ⟨⟨rfl, rfl, rfl⟩, rfl⟩

/-- No command writes the command port: its own word is gone before it runs (R23). -/
theorem exec_keepsInputs (i : Instr) (s t : State) (h : exec i s = .next t) : KeepsInputs s t := by
  by_cases hi : i = .pollReady
  · subst hi
    cases h
    exact ⟨rfl, rfl, rfl⟩
  · exact (exec_keepsInputsAndConnected i s t h hi).1

/-- CONNECTED is as it was, or a true sample of POLL_READY has set it (R28, R89). -/
theorem exec_connected (i : Instr) (s t : State) (h : exec i s = .next t) :
    t.status.connected = s.status.connected
      ∨ (i = .pollReady ∧ s.env.nextReady = true ∧ t.status.connected = true) := by
  by_cases hi : i = .pollReady
  · subst hi
    cases h
    cases hn : s.env.nextReady <;> simp
  · exact Or.inl (exec_keepsInputsAndConnected i s t h hi).2

/-- No step outside reset clears CONNECTED (R28). -/
theorem step_keeps_connected (s t : State) (h : step s = .next t) (hr : s.resetIn = false)
    (hc : s.status.connected = true) : t.status.connected = true := by
  rcases step_cases s t h with ⟨hr', _⟩ | ⟨_, _, rfl⟩ | ⟨_, _, _, rfl⟩ | ⟨_, _, _, _, _, rfl⟩
      | ⟨_, _, _, _, cw, rest, _, ⟨_, _, rfl⟩ | ⟨i, _, hexec⟩⟩
  · exact absurd (hr.symm.trans hr') Bool.false_ne_true
  · exact (pushBatch_keepsInputsAndConnected s).2.trans hc
  · exact hc
  · exact hc
  · exact hc
  · rcases exec_connected i _ t hexec with hsame | ⟨_, _, hset⟩
    · exact hsame.trans hc
    · exact hset

/-! ### The command port (R23, R49, R117) -/

theorem portStep_held (s : State) (h : s.status.busy = true ∨ s.status.fault = true) : portStep s = .next s :=
  if_pos (by simpa using h)

theorem portStep_empty (s : State) (h : s.port = []) : portStep s = .next s := by
  simp [portStep, h]

theorem portStep_accepts (s : State) (cw : Word) (rest : List Word) (hb : s.status.busy = false)
    (hf : s.status.fault = false) (hp : s.port = cw :: rest) : portStep s = runWord cw { s with port := rest } := by
  simp [portStep, hb, hf, hp]

/-- Running a word, legal or not, takes no word from the port. -/
theorem runWord_keepsInputs (cw : Word) (s t : State) (h : runWord cw s = .next t) : KeepsInputs s t := by
  unfold runWord at h
  split at h
  next i _ => exact exec_keepsInputs i s t h
  next =>
    cases h
    exact ⟨rfl, rfl, rfl⟩

/-! ### The host register port (R27, R35) -/

theorem FaultCode.code_injective : Function.Injective FaultCode.code := by
  intro a b
  cases a <;> cases b <;> decide

theorem Status.getLsbD_word (t : Status) :
    t.word.getLsbD 0 = t.connected ∧ t.word.getLsbD 1 = t.rxv ∧ t.word.getLsbD 2 = t.rxd
      ∧ t.word.getLsbD 3 = t.busy ∧ t.word.getLsbD 7 = t.fault := by
  refine ⟨?_, ?_, ?_, ?_, ?_⟩ <;>
    rw [Status.word, BitVec.getLsbD_append] <;> simp only [BitVec.getLsbD_append] <;> simp

/-- FCODE stands above six fields, which take eight bits. -/
theorem Status.extractLsb'_word_fcode (t : Status) : t.word.extractLsb' 8 4 = t.fcode.code := by
  rw [Status.word]
  iterate 6 rw [BitVec.extractLsb'_append_eq_of_le (by decide)]
  exact BitVec.extractLsb'_append_eq_right

theorem Status.extractLsb'_word_reserved_low (t : Status) : t.word.extractLsb' 4 3 = 0 := by
  rw [Status.word]
  iterate 4 rw [BitVec.extractLsb'_append_eq_of_le (by decide)]
  exact BitVec.extractLsb'_append_eq_right

theorem Status.extractLsb'_word_reserved_high (t : Status) : t.word.extractLsb' 12 4 = 0 := by
  rw [Status.word]
  iterate 7 rw [BitVec.extractLsb'_append_eq_of_le (by decide)]
  rfl

/-- The FCODE field holds the number of a code exactly when that code is recorded. -/
theorem Status.extractLsb'_word_eq_code_iff (t : Status) (code : FaultCode) :
    t.word.extractLsb' 8 4 = code.code ↔ t.fcode = code := by
  rw [t.extractLsb'_word_fcode, FaultCode.code_injective.eq_iff]

theorem State.toNat_hostRead_res (s : State) : (s.hostRead 1).toNat = s.res.toNat := by
  rw [State.hostRead, BitVec.toNat_setWidth_of_le (by decide)]

theorem State.toNat_hostRead_buttons (s : State) :
    (s.hostRead 2).toNat = s.btnPrev.toNat * 256 + s.btnCur.toNat := by
  rw [State.hostRead, BitVec.toNat_append, ← Nat.shiftLeft_add_eq_or_of_lt s.btnCur.isLt, Nat.shiftLeft_eq]

theorem State.hostRead_reserved (s : State) (a : Nat) (h : 3 ≤ a) : s.hostRead a = 0 := by
  obtain ⟨n, rfl⟩ := Nat.exists_eq_add_of_le' h
  rfl

end Sys2Proof.Machine

namespace Sys2Proof.Proofs

open Sys2Proof.Machine

/-- Settles O3: an accepted word runs on the port without it, which no command writes; a held port keeps its words. -/
theorem commandPortAcceptsAndHolds : Obligations.CommandPortAcceptsAndHolds := by
  intro s hr
  refine ⟨fun cw rest t hs hb hf hp hstep => ?_, fun hheld => ?_, fun hf hs => ?_, fun hp hs => ?_⟩
  · rw [step_idle s hr hs, portStep_accepts s cw rest hb hf hp] at hstep
    obtain ⟨_, hport, _⟩ := runWord_keepsInputs cw _ t hstep
    exact hport
  · cases hs : s.seq with
    | wait =>
      obtain ⟨⟨_, hport, _⟩, _⟩ := pushBatch_keepsInputsAndConnected s
      exact ⟨_, step_wait s hr hs, hport⟩
    | idle => exact ⟨s, (step_idle s hr hs).trans (portStep_held s hheld), rfl⟩
  · exact (step_idle s hr hs).trans (portStep_held s (Or.inr hf))
  · exact (step_idle s hr hs).trans (portStep_empty s hp)

/-- Settles O46, from what every command, the sequencer and reset do to CONNECTED. -/
theorem connectedIsSetByPollAlone : Obligations.ConnectedIsSetByPollAlone := by
  refine ⟨fun _ => rfl, exec_connected, fun s t hstep => ⟨step_keeps_connected s t hstep, fun hr => ?_, fun hr hs => ?_⟩⟩
  · rw [step_reset s hr] at hstep
    cases hstep
    rfl
  · rw [step_wait s hr hs] at hstep
    cases hstep
    exact (pushBatch_keepsInputsAndConnected s).2

/-- Settles O7, field by field: address 0 is the word of STATUS. -/
theorem hostPortShowsTheRegisters : Obligations.HostPortShowsTheRegisters := by
  intro s
  obtain ⟨hconnected, hrxv, hrxd, hbusy, hfault⟩ := s.status.getLsbD_word
  have hcode := s.status.extractLsb'_word_eq_code_iff
  exact ⟨⟨hconnected, hrxv, hrxd, hbusy, hfault, s.status.extractLsb'_word_fcode,
      s.status.extractLsb'_word_reserved_low, s.status.extractLsb'_word_reserved_high⟩,
    ⟨hcode .none, hcode .illegalCommand, hcode .appendOverflow, hcode .dataWindow, hcode .indexRange⟩,
    s.toNat_hostRead_res, s.toNat_hostRead_buttons, s.hostRead_reserved⟩

end Sys2Proof.Proofs
end

section
/-! PROOFS. The statements of 30_encoding.md: the legal and the reserved command words, the frames the serializer builds,
and the packed frame in TX. -/

namespace Sys2Proof

/-! ### What the decoder answers (R59, R60) -/

/-- A command's op value is listed with the command's format (R59). -/
theorem opFormat_opcode (i : Instr) : opFormat (BitVec.ofNat 8 i.opcode) = some i.format := by
  cases i <;> rfl

theorem Instr.format_of_opcode_eq (i j : Instr) (h : i.opcode = j.opcode) : i.format = j.format := by
  rw [← Option.some_inj, ← opFormat_opcode, h, opFormat_opcode]

/-- A command built from a word has the word's op (R59). -/
theorem opOf_of_buildInstr (cw : Word) (i : Instr) (h : buildInstr cw = some i) : opOf cw = BitVec.ofNat 8 i.opcode := by
  have hop : (opOf cw).toNat = i.opcode := by
    unfold buildInstr at h
    split at h <;> cases h <;> assumption
  rw [← hop, BitVec.ofNat_toNat, BitVec.setWidth_eq]

/-- The op of a word that builds a command is listed with the command's format (R59). -/
theorem opFormat_of_buildInstr (cw : Word) (i : Instr) (h : buildInstr cw = some i) :
    opFormat (opOf cw) = some i.format := by
  rw [opOf_of_buildInstr cw i h, opFormat_opcode]

theorem setWidth_opOf_of_buildInstr (cw : Word) (i : Instr) (h : buildInstr cw = some i) :
    (opOf cw).setWidth 64 = BitVec.ofNat 64 i.opcode := by
  have hlt := i.opcode_lt
  rw [opOf_of_buildInstr cw i h]
  exact BitVec.eq_of_toNat_eq (by simp; omega)

/-- Every listed op has a command (R59). -/
theorem buildInstr_of_opFormat (cw : Word) (f : Format) (h : opFormat (opOf cw) = some f) : ∃ i, buildInstr cw = some i := by
  unfold opFormat at h
  unfold buildInstr
  split at h <;> cases h <;> exact ⟨_, rfl⟩

/-- A word is a command exactly when it builds that command and holds its op under the mask of its format (R59). -/
theorem decode_eq_ok_iff (cw : Word) (i : Instr) :
    decode cw = .ok i ↔ buildInstr cw = some i ∧ cw &&& formatMask i.format = BitVec.ofNat 64 i.opcode := by
  constructor
  · intro h
    unfold decode at h
    split at h
    · cases h
    next f hf =>
      split at h
      next hmask =>
        split at h
        next hbuild =>
          cases h
          obtain rfl : f = i.format := by simpa using hf.symm.trans (opFormat_of_buildInstr cw i hbuild)
          exact ⟨hbuild, hmask.trans (setWidth_opOf_of_buildInstr cw i hbuild)⟩
        · cases h
      · cases h
  · rintro ⟨hbuild, hmask⟩
    simp only [decode, opFormat_of_buildInstr cw i hbuild, setWidth_opOf_of_buildInstr cw i hbuild, hmask, hbuild,
      if_true]

/-- No mask hides a bit of the op (R58). -/
theorem opOf_and_formatMask (cw : Word) (f : Format) : opOf (cw &&& formatMask f) = opOf cw := by
  refine BitVec.eq_of_getLsbD_eq fun k hk => ?_
  simp [opOf, formatMask_getLsbD f k (by omega), hk]

/-- A word that holds a command's op under the mask of its format builds a command of that op (R59). -/
theorem buildInstr_of_mask (cw : Word) (j : Instr) (h : cw &&& formatMask j.format = BitVec.ofNat 64 j.opcode) :
    ∃ i, buildInstr cw = some i ∧ i.opcode = j.opcode := by
  have hop : opOf cw = BitVec.ofNat 8 j.opcode := by
    rw [← opOf_and_formatMask cw j.format, h]
    exact BitVec.eq_of_toNat_eq (by simp [toNat_opOf])
  obtain ⟨i, hi⟩ := buildInstr_of_opFormat cw j.format (by rw [hop, opFormat_opcode])
  have hsame := congrArg BitVec.toNat ((opOf_of_buildInstr cw i hi).symm.trans hop)
  rw [Machine.toNat_ofNat8 _ i.opcode_lt, Machine.toNat_ofNat8 _ j.opcode_lt] at hsame
  exact ⟨i, hi, hsame⟩

/-! ### Reserved encodings (R60) -/

theorem decode_of_reservedOp (cw : Word) (h : Machine.ReservedOp cw) : decode cw = .error .reservedOp := by
  have hnone : opFormat (opOf cw) = none := by
    refine Option.eq_none_iff_forall_ne_some.mpr fun f hf => ?_
    unfold Machine.ReservedOp at h
    unfold opFormat at hf
    split at hf <;> cases hf <;> omega
  simp only [decode, hnone]

/-- A reserved-zero bit that is 1 stays 1 under the mask, so the word is too large for its format. -/
theorem decode_of_reservedBitSet (cw : Word) (h : Machine.ReservedBitSet cw) : decode cw = .error .reservedBits := by
  obtain ⟨f, b, hf, hb, hmask, hbit⟩ := h
  have hlt : b < 64 := BitVec.lt_of_getLsbD hbit
  have hwide : formatWidth f ≤ b := by
    simpa [formatMask_getLsbD f b hlt, Nat.not_lt.mpr hb] using hmask
  have htest : ¬ cw &&& formatMask f = (opOf cw).setWidth 64 := by
    rw [mask_test_iff]
    intro hsmall
    have hzero := Nat.testBit_lt_two_pow (hsmall.trans_le (Nat.pow_le_pow_right (by omega) hwide))
    rw [BitVec.testBit_toNat, hbit] at hzero
    cases hzero
  simp only [decode, hf, htest, if_false]

end Sys2Proof

namespace Sys2Proof.Machine

/-! ### Words of commands -/

/-- The op and the operand fields of a command, 0 in every other bit, are a word of it, if the fields give back its operands. -/
theorem encodesAs_of_encodedWord (i : Instr) (h : Laws.EncodedWord.Statement i) (hb : buildInstr (encode i) = some i) :
    EncodesAs (i.opcode + i.fieldBits) i := by
  obtain ⟨hbits, _, _, hsmall⟩ := h
  refine ⟨hbits ▸ (encode i).isLt, (decode_eq_ok_iff (encode i) i).mpr ⟨hb, ?_⟩⟩
  rw [(mask_test_iff _ _).mpr hsmall, setWidth_opOf_of_buildInstr _ i hb]

theorem encodesAs_formatBatch (col : BitVec 12) : EncodesAs (0x19 + col.toNat * 2 ^ 8) (.formatBatch col) := by
  refine encodesAs_of_encodedWord (.formatBatch col) (Laws.EncodedWord.formatBatch col) ?_
  obtain ⟨hbits, hop, _⟩ := Laws.EncodedWord.formatBatch col
  have hfield : (encode (.formatBatch col)).extractLsb' 8 12 = col := by
    refine BitVec.eq_of_toNat_eq ?_
    have := col.isLt
    rw [toNat_field, hbits]
    simp only [Instr.opcode, Instr.fieldBits]
    omega
  unfold buildInstr
  rw [toNat_opOf, hop, hfield]
  rfl

/-- Recording a fault changes nothing else (R116). -/
theorem onlyFaults_raise (code : FaultCode) (s : State) : OnlyFaults code s (s.raise code) :=
  ⟨⟨⟨rfl, rfl, rfl⟩, ⟨rfl, rfl⟩, ⟨rfl, rfl⟩, ⟨rfl, rfl⟩, fun _ => rfl, fun _ => rfl, fun _ => rfl, rfl, rfl⟩, rfl⟩

theorem runWord_of_error (cw : Word) (s : State) (e : Illegal) (h : decode cw = .error e) :
    runWord cw s = .next (s.raise .illegalCommand) := by
  simp only [runWord, h]

/-! ### The serializer's frames (R100, R101) -/

theorem keepsAllButTx_of_tx_window (s t : State) (h : t = { s with tx := t.tx, dptr := t.dptr, drem := t.drem }) :
    KeepsAllButTx s t := by
  obtain ⟨hcfg, hrx, hfb, hstatus, hres, hcur, hprev, hseq, hcol, hport, hreset, henv⟩ := keeps_of_tx_window s t h
  exact ⟨⟨hcfg, hport, hreset⟩, ⟨hseq, hcol⟩, ⟨hcur, hprev⟩, fun _ => by rw [hrx], fun _ => by rw [hfb], hstatus, hres,
    henv⟩

theorem columnBytes_eq (c : Config) (fb : Memory) (col : Nat) :
    columnBytes c fb col = (List.range c.halfH).map (fun j => fb.read (col * c.halfH + j)) := by
  simp [columnBytes, Memory.bytesFrom, List.range'_eq_map_range]

/-- The `m`-th packet of a batch is the column `col + m`, behind `m` packets of one footprint (R66, R101). -/
theorem packetIs_batch (c : Config) (fb f : Memory) (col m : Nat) (hm : m < min (col + 3) c.W - col)
    (hp : PacketsAt f 0 (batchMessages c fb col)) :
    PacketIs f (m * footprint c.halfH) c.k.displaySvc c.k.cmdSetPixels (columnBytes c fb (col + m)) := by
  have hget : (batchMessages c fb col)[m]? = some (columnMessage c fb (col + m)) := by
    simp [batchMessages, batchColumns, hm]
  have hoff : totalFootprint ((batchMessages c fb col).take m) = m * footprint c.halfH := by
    rw [batchMessages, ← List.map_take, totalFootprint_columns, List.length_take, length_batchColumns, Nat.min_eq_left hm.le]
  have := packetsAt_get _ f 0 m _ hget hp
  rwa [hoff, Nat.zero_add] at this

/-- The data of a batch's last packet ends inside the payload, so DPTR holds the offset behind it (R72, R101). -/
theorem batch_window_lt (c : Config) (col : Nat) (hcol : col < c.W) :
    ((batchColumns c col).length - 1) * footprint c.halfH + pktHdr + c.halfH < 256 := by
  have hfp := footprint_ge c.halfH
  have hcap := totalFootprint_batch_le c [] col
  have hlen := length_batchColumns c col
  simp only [batchCols] at hlen
  obtain ⟨k, hk⟩ := Nat.exists_eq_add_of_le' (show 1 ≤ (batchColumns c col).length by omega)
  rw [batchMessages, totalFootprint_columns, hk, Nat.add_mul] at hcap
  rw [hk, Nat.add_sub_cancel]
  simp only [payloadCap, pktHdr] at hcap ⊢
  omega

/-! ### TX stays packed under every step (R63) -/

theorem TxIsPacked.resetWith (c : Config) : TxIsPacked (State.resetWith c) :=
  ⟨[], trivial, rfl, fun h => absurd rfl h⟩

/-- A command that ends with a fault leaves TX as it was. -/
theorem TxIsPacked.finish (s : State) (r : Except FaultCode State) (hp : TxIsPacked s)
    (hr : ∀ t, r = .ok t → TxIsPacked t) : TxIsPacked (s.finish r) := by
  cases r with
  | ok t => exact hr t rfl
  | error code => exact hp.congr s _ rfl rfl rfl

/-- A command that builds no frame, and starts no push, writes neither TX nor the data window. -/
theorem exec_keepsFrame (i : Instr) (s t : State) (h : exec i s = .next t) (hkind : i.buildsFrame = false)
    (hpush : i ≠ .pushFramebuffer) : t.tx = s.tx ∧ KeepsWindow s t := by
  cases exec_ends i s t h with
  | built hbuilds => rw [hkind] at hbuilds; cases hbuilds
  | pushSkipped hi | pushStarted hi => exact absurd hi hpush
  | exchanged => exact ⟨exchange_tx s, exchange_dptr s, exchange_drem s⟩
  | decoded =>
    obtain ⟨_, htx, _, _, _, hptr, hrem, _⟩ := decodeResponse_frame s
    exact ⟨htx, hptr, hrem⟩
  | _ => exact ⟨rfl, rfl, rfl⟩

theorem TxIsPacked.exec (i : Instr) (s t : State) (h : Inv s) (hp : TxIsPacked s) (he : Machine.exec i s = .next t) :
    TxIsPacked t := by
  cases i with
  | beginFrame => cases he; exact TxIsPacked.beginFrame s
  | append size svc cmd => cases he; exact hp.finish s _ fun u hu => hp.append s u size svc cmd h hu
  | putData b =>
    rw [execPutData_next b s t he]
    exact hp.finish s _ fun u hu => hp.put s u b h hu
  | finalize => cases he; exact hp.finalize s
  | formatBeginUpdate => cases he; exact hp.finish s _ fun u hu => TxIsPacked.formatBeginUpdate s u hu
  | formatBatch col =>
    cases he
    split
    · exact hp.congr s _ rfl rfl rfl
    next hcol => exact hp.finish s _ fun u hu => TxIsPacked.formatBatch s u _ (Nat.lt_of_not_le hcol) hu
  | pushFramebuffer =>
    cases he
    split
    · exact hp.finish s _ fun u hu => TxIsPacked.startPush s u hu
    · exact hp
  | _ =>
    obtain ⟨htx, hptr, hrem⟩ := exec_keepsFrame _ s t he rfl (by simp)
    exact hp.congr s t htx hptr hrem

theorem TxIsPacked.step (s t : State) (h : Inv s) (hp : TxIsPacked s) (hs : Machine.step s = .next t) : TxIsPacked t := by
  rcases step_cases s t hs with ⟨_, rfl⟩ | ⟨_, hseq, rfl⟩ | ⟨_, _, _, rfl⟩ | ⟨_, _, _, _, _, rfl⟩
    | ⟨_, _, _, _, _, rest, _, hrun⟩
  · exact (TxIsPacked.resetWith s.cfg).congr _ _ rfl rfl rfl
  · exact hp.pushBatch s h hseq
  · exact hp
  · exact hp
  · have hp' : TxIsPacked { s with port := rest } := hp.congr s _ rfl rfl rfl
    rcases hrun with ⟨_, _, rfl⟩ | ⟨i, _, hexec⟩
    · exact hp'.congr _ _ rfl rfl rfl
    · exact hp'.exec i _ t (h.withPort s rest) hexec

/-! ### The scan of a packed frame (R46, R63) -/

/-- A scan of a packed TX reads the records of its packets, as they fill payload_length (R76). -/
theorem scan_of_packed (s : State) (ms : List Message) (h : Inv s) (hms : PacketsAt s.tx 0 ms)
    (hcur : writeCursor s = totalFootprint ms) : scan s.tx = recordsFrom 0 ms := by
  have hcap := h.cursorFits
  have hlen := four_mul_length_le_totalFootprint ms
  have hbound : scanBound s.tx = 0 + totalFootprint ms := by
    rw [Nat.zero_add, ← hcur]
    exact Nat.min_eq_left hcap
  simp only [payloadCap] at hcap
  rw [scan, hbound, scanFrom_packets ms s.tx 60 0 (by omega) hms]

theorem sum_footprint_recordsFrom (off : Nat) (ms : List Message) :
    ((recordsFrom off ms).map (fun p => footprint p.size)).sum = totalFootprint ms := by
  induction ms generalizing off with
  | nil => rfl
  | cons m ms ih => simp only [recordsFrom, List.map_cons, List.sum_cons, ih, totalFootprint_cons]

/-- A record of packed packets is of one of them: at an aligned offset, with its data as long as the record says. -/
theorem mem_recordsFrom (f : Memory) (off : Nat) (ms : List Message) (p : Packet) (hoff : off % 4 = 0)
    (hms : PacketsAt f off ms) (hp : p ∈ recordsFrom off ms) :
    p.off % 4 = 0 ∧ ∃ data, data.length = p.size ∧ PacketIs f p.off p.svc p.cmd data := by
  induction ms generalizing off with
  | nil => cases hp
  | cons m ms ih =>
    obtain ⟨hm, hms⟩ := hms
    rcases List.mem_cons.mp hp with rfl | hp
    · exact ⟨hoff, m.data, rfl, hm⟩
    · have hfp := footprint_mod m.data.length
      exact ih _ (by omega) hms hp

end Sys2Proof.Machine

namespace Sys2Proof.Proofs

open Sys2Proof.Machine

/-- Settles O53, by what a step can do: every operation of the builder, the serializer and the sequencer keeps TX packed. -/
theorem everyStepKeepsTxPacked : Obligations.EveryStepKeepsTxPacked :=
  fun s t h hp hs => hp.step s t h hs

/-- Settles O2: the decoder refuses both kinds of word, and the port runs the refused word as the fault. -/
theorem illegalWordOnlyFaults : Obligations.IllegalWordOnlyFaults := by
  intro s cw rest hr hs hb hf hport hillegal
  obtain ⟨e, he⟩ : ∃ e, decode cw = .error e := by
    rcases hillegal with hop | hbits
    · exact ⟨_, decode_of_reservedOp cw hop⟩
    · exact ⟨_, decode_of_reservedBitSet cw hbits⟩
  refine ⟨_, ?_, onlyFaults_raise _ _⟩
  rw [step_idle s hr hs, portStep_accepts s cw rest hb hf hport, runWord_of_error cw _ e he]

/-- Settles O11: the masked word fixes the op, and commands of one op have one format. -/
theorem maskAndMatchSelectTheCommand : Obligations.MaskAndMatchSelectTheCommand := by
  intro cw j
  constructor
  · intro h
    obtain ⟨i, hi, hop⟩ := buildInstr_of_mask cw j h
    refine ⟨i, (decode_eq_ok_iff cw i).mpr ⟨hi, ?_⟩, hop⟩
    rw [i.format_of_opcode_eq j hop, hop, h]
  · rintro ⟨i, hi, hop⟩
    rw [← i.format_of_opcode_eq j hop, ← hop]
    exact ((decode_eq_ok_iff cw i).mp hi).2

/-- Settles O31: the frame is the one packet that the serializer appends. -/
theorem formatBeginUpdateBuildsTheFrame : Obligations.FormatBeginUpdateBuildsTheFrame := by
  refine ⟨⟨by decide, by decide⟩, fun s => ?_⟩
  obtain ⟨t, ht, hts, hheader, ⟨hpacket, _⟩, hbeyond, _⟩ := formatBeginUpdate_ok s
  refine ⟨t, ?_, keepsAllButTx_of_tx_window s t (by rw [hts]), hheader, hpacket, hbeyond, by rw [hts], by rw [hts]⟩
  rw [exec, execFormatBeginUpdate, ht, State.finish_ok]

/-- Settles O32: the frame is the run of the columns' packets, all of one footprint. -/
theorem formatBatchBuildsTheFrameOrFaults : Obligations.FormatBatchBuildsTheFrameOrFaults := by
  refine ⟨encodesAs_formatBatch, fun s col => ⟨fun hcol => ?_, fun hcol => ?_⟩⟩
  · obtain ⟨t, ht, hts, hheader, hpackets, hbeyond, hwindow, _⟩ := formatBatch_ok col.toNat s
    obtain ⟨hrem, hptr⟩ := hwindow hcol
    have htotal : totalFootprint (batchMessages s.cfg s.fb col.toNat)
        = (min (col.toNat + 3) s.cfg.W - col.toNat) * footprint s.cfg.halfH := by
      rw [batchMessages, totalFootprint_columns, length_batchColumns]
    rw [htotal] at hheader hbeyond
    refine ⟨t, ?_, keepsAllButTx_of_tx_window s t hts, hheader, fun m hm => ?_, hbeyond, hrem, ?_⟩
    · rw [exec, execFormatBatch, if_neg (Nat.not_le.mpr hcol), ht, State.finish_ok]
    · have := packetIs_batch s.cfg s.fb t.tx col.toNat m hm hpackets
      rwa [columnBytes_eq] at this
    · rw [hptr, toNat_ofNat8 _ (batch_window_lt s.cfg _ hcol), length_batchColumns]
      rfl
  · exact ⟨_, by rw [exec, execFormatBatch, if_pos hcol], onlyFaults_raise _ s⟩

/-- Settles O54: the scan reads the records of the packets TX is made of. -/
theorem scannedPacketsOfTxAreAlignedAndPadded : Obligations.ScannedPacketsOfTxAreAlignedAndPadded := by
  rintro s h ⟨ms, hms, hcur, _⟩
  rw [scan_of_packed s ms h hms hcur]
  refine ⟨(sum_footprint_recordsFrom 0 ms).trans hcur.symm, fun p hp => ?_⟩
  obtain ⟨haligned, data, hsize, _, _, _, _, hpadding⟩ := mem_recordsFrom s.tx 0 ms p rfl hms hp
  rw [hsize] at hpadding
  exact ⟨haligned, hpadding⟩

/-- Settles O52: the empty TX is the run of no packets. -/
theorem txIsPackedAtReset : Obligations.TxIsPackedAtReset :=
  ⟨TxIsPacked.resetWith _, TxIsPacked.resetWith⟩

end Sys2Proof.Proofs
end

section
/-! PROOFS. The statements of 40_frame_codec.md: the commands of the packet builder, the scan of any frame, and the scan of a
frame just packed. -/

namespace Sys2Proof.Machine

/-! ### Words of the packet builder's commands (R58, R59) -/

theorem toNat_opOf_encode (i : Instr) (h : Laws.EncodedWord.Statement i) : (opOf (encode i)).toNat = i.opcode := by
  obtain ⟨_, hop, _⟩ := h
  rw [toNat_opOf, hop]

/-- An operand field reads from the encoded word what the operands, as one number, hold there (R58). -/
theorem extractLsb'_encode (i : Instr) (lo len : Nat) (v : BitVec len) (h : Laws.EncodedWord.Statement i)
    (hv : (i.opcode + i.fieldBits) / 2 ^ lo % 2 ^ len = v.toNat) : (encode i).extractLsb' lo len = v := by
  obtain ⟨hbits, _⟩ := h
  exact BitVec.eq_of_toNat_eq (by rw [toNat_field, hbits, hv])

theorem encodesAs_append (size svc : Byte) (cmd : BitVec 16) :
    EncodesAs (0x02 + size.toNat * 2 ^ 8 + svc.toNat * 2 ^ 16 + cmd.toNat * 2 ^ 24) (.append size svc cmd) := by
  have hword := Laws.EncodedWord.append size svc cmd
  have := size.isLt
  have := svc.isLt
  have := cmd.isLt
  have hsize := extractLsb'_encode _ 8 8 size hword (by simp only [Instr.opcode, Instr.fieldBits]; omega)
  have hsvc := extractLsb'_encode _ 16 8 svc hword (by simp only [Instr.opcode, Instr.fieldBits]; omega)
  have hcmd := extractLsb'_encode _ 24 16 cmd hword (by simp only [Instr.opcode, Instr.fieldBits]; omega)
  have hencodes := encodesAs_of_encodedWord _ hword (by
    rw [buildInstr, toNat_opOf_encode _ hword, hsize, hsvc, hcmd]
    rfl)
  simpa only [Instr.opcode, Instr.fieldBits, Nat.add_assoc] using hencodes

/-- A command whose one operand is the byte above the op (formats B, I and Q): its word, if the decoder builds it from that op
and that byte. -/
theorem encodesAs_byteOperand (i : Instr) (b : Byte) (hword : Laws.EncodedWord.Statement i)
    (hfield : i.fieldBits = b.toNat * 2 ^ 8)
    (hbuild : ∀ cw, (opOf cw).toNat = i.opcode → cw.extractLsb' 8 8 = b → buildInstr cw = some i) :
    EncodesAs (i.opcode + b.toNat * 2 ^ 8) i := by
  have := b.isLt
  have := i.opcode_lt
  have hbyte := extractLsb'_encode i 8 8 b hword (by rw [hfield]; omega)
  rw [← hfield]
  exact encodesAs_of_encodedWord i hword (hbuild _ (toNat_opOf_encode i hword) hbyte)

theorem encodesAs_putData (b : Byte) : EncodesAs (0x03 + b.toNat * 2 ^ 8) (.putData b) :=
  encodesAs_byteOperand (.putData b) b (Laws.EncodedWord.putData b) rfl fun cw hop hbyte => by
    rw [buildInstr, hop, hbyte]; rfl

theorem encodesAs_readTx (index : Byte) : EncodesAs (0x05 + index.toNat * 2 ^ 8) (.readTx index) :=
  encodesAs_byteOperand (.readTx index) index (Laws.EncodedWord.readTx index) rfl fun cw hop hbyte => by
    rw [buildInstr, hop, hbyte]; rfl

/-! ### The packet builder and READ_TX (R71 to R74, R83) -/

/-- BEGIN_FRAME stamps the device identifier (R71). -/
theorem readLE_beginFrame_deviceId (s : State) : (beginFrame s).tx.readLE 4 8 = s.cfg.k.deviceId.toNat := by
  rw [beginFrame_tx, Memory.readLE_writeLE]
  exact Nat.mod_eq_of_lt s.cfg.k.deviceId.isLt

/-- `append` within the capacity, field by field: the packet header at the cursor, payload_length, the window over the data,
and no other byte (R72). -/
theorem append_header (size svc : Byte) (cmd : BitVec 16) (s : State)
    (h : writeCursor s + footprint size.toNat ≤ payloadCap) :
    ∃ t, append size svc cmd s = .ok t ∧ t = { s with tx := t.tx, dptr := t.dptr, drem := t.drem }
      ∧ t.tx.read (frameHdr + writeCursor s) = size ∧ t.tx.read (frameHdr + writeCursor s + 1) = svc
      ∧ t.tx.readLE (frameHdr + writeCursor s + 2) 2 = cmd.toNat
      ∧ writeCursor t = writeCursor s + footprint size.toNat
      ∧ t.dptr.toNat = writeCursor s + pktHdr ∧ t.drem = size
      ∧ ∀ a, a ≠ 2 → a < frameHdr + writeCursor s ∨ frameHdr + writeCursor s + pktHdr ≤ a → t.tx.read a = s.tx.read a := by
  obtain ⟨m, hm, hread, _⟩ := append_ok size svc cmd s h
  have hfp := footprint_ge size.toNat
  simp only [payloadCap] at h
  have hheader : ∀ k, k < 4 → m.read (frameHdr + writeCursor s + k) = (packetBytes size svc cmd []).getD k 0 := by
    intro k hk
    rw [hread, if_neg (by simp only [frameHdr]; omega), if_pos (by simp only [pktHdr]; omega), Nat.add_sub_cancel_left]
  refine ⟨_, hm, rfl, hheader 0 (by omega), hheader 1 (by omega), ?_, ?_, ?_, rfl, fun a ha hout => ?_⟩
  · rw [Memory.readLE_of_bytes m _ 2 cmd.toNat (fun i hi => ?_)]
    · exact Nat.mod_eq_of_lt cmd.isLt
    · rw [Nat.add_assoc, hheader (2 + i) (by omega)]
      obtain rfl | rfl : i = 0 ∨ i = 1 := by omega
      all_goals simp [packetBytes]
  · show (m.read 2).toNat = _
    rw [hread, if_pos rfl, toNat_ofNat8 _ (by omega)]
  · exact toNat_ofNat8 _ (by simp only [pktHdr]; omega)
  · rw [hread, if_neg ha, if_neg (by omega)]

/-- Where the data window lies inside the payload capacity, PUT_DATA is `put`: the model does not stop (R81). -/
theorem exec_putData (b : Byte) (s : State) (h : s.dptr.toNat + s.drem.toNat ≤ payloadCap) :
    exec (.putData b) s = .next (s.finish (put b s)) := by
  obtain ⟨t, ht⟩ := exec_answers (.putData b) s h
  rw [ht, execPutData_next b s t ht]

theorem put_open (b : Byte) (s : State) (h : s.drem ≠ 0) :
    put b s = .ok { s with tx := s.tx.write (frameHdr + s.dptr.toNat) b, dptr := s.dptr + 1, drem := s.drem - 1 } :=
  if_neg h

theorem put_closed (b : Byte) (s : State) (h : s.drem = 0) : put b s = .error .dataWindow := if_pos h

/-- Writing RES changes nothing else (R33). -/
theorem keepsAllButRes_of_res (s : State) (b : Byte) : KeepsAllButRes s { s with res := b } :=
  ⟨⟨rfl, rfl, rfl⟩, ⟨rfl, rfl⟩, ⟨rfl, rfl⟩, ⟨rfl, rfl⟩, fun _ => rfl, fun _ => rfl, fun _ => rfl, rfl, rfl⟩

/-! ### The scan (R76, R78) -/

/-- With an iteration left for every packet that can lie below the bound, the scan is what the loop finds (R76). -/
theorem scannedFrom_scanFrom (f : Memory) (bound fuel off : Nat) (h : bound < off + 4 * (fuel + 1)) :
    ScannedFrom f bound off (scanFrom f bound fuel off) := by
  induction fuel generalizing off with
  | zero => exact Or.inl (by omega)
  | succ n ih =>
    simp only [scanFrom]
    split
    next hheader =>
      split
      next hdata => exact Or.inr hdata
      next hdata =>
        have hfp := footprint_ge (f.read (frameHdr + off)).toNat
        refine ⟨rfl, rfl, rfl, ?_, Nat.le_of_not_lt hdata, ?_⟩
        · rw [BitVec.toNat_ofNat]
          exact Nat.mod_eq_of_lt (Memory.readLE_lt f _ 2)
        · rw [Nat.add_assoc]
          exact ih _ (by omega)
    next hheader => exact Or.inl (Nat.lt_of_not_le hheader)

/-- The bytes of a packet's data region are its data (R63). -/
theorem bytesFrom_of_packetIs (f : Memory) (off : Nat) (svc : Byte) (cmd : BitVec 16) (data : List Byte)
    (hp : PacketIs f off svc cmd data) : f.bytesFrom (frameHdr + off + pktHdr) data.length = data := by
  obtain ⟨_, _, _, hdata, _⟩ := hp
  refine List.ext_getElem (Memory.length_bytesFrom ..) fun j _ hj => ?_
  simp [Memory.bytesFrom, hdata j hj, hj]

/-- The records of packed packets give back the packets' data (R76, R78). -/
theorem map_data_recordsFrom (f : Memory) (off : Nat) (ms : List Message) (hp : PacketsAt f off ms) :
    (recordsFrom off ms).map (Packet.data f) = ms.map Message.data := by
  induction ms generalizing off with
  | nil => rfl
  | cons m ms ih =>
    obtain ⟨hm, hms⟩ := hp
    simp only [recordsFrom, List.map_cons, ih _ hms, Packet.data, bytesFrom_of_packetIs f off _ _ _ hm]

/-- A scan of packets that fill payload_length reads their records, whatever else the block holds (R76, R78). -/
theorem scan_of_packetsAt (f : Memory) (ms : List Message) (hp : PacketsAt f 0 ms)
    (hlen : (f.read 2).toNat = totalFootprint ms) (hcap : totalFootprint ms ≤ payloadCap) :
    scan f = recordsFrom 0 ms := by
  have hcount := four_mul_length_le_totalFootprint ms
  have hbound : scanBound f = 0 + totalFootprint ms := by
    rw [Nat.zero_add, ← hlen]
    exact Nat.min_eq_left (hlen ▸ hcap)
  simp only [payloadCap] at hcap
  rw [scan, hbound, scanFrom_packets ms f 60 0 (by omega) hp]

end Sys2Proof.Machine

namespace Sys2Proof.Proofs

open Sys2Proof.Machine

/-- Settles O20: the packets stand one after the other in the frame built, by induction over them (`appendAll_ok`), and the
scan reads packets that stand so. -/
theorem scanOfPackedFrameGivesThePackets : Obligations.ScanOfPackedFrameGivesThePackets := by
  intro s ms hcap
  have hstart := writeCursor_beginFrame s
  obtain ⟨t, ht, _, hcur, _, _, hms, _⟩ := appendAll_ok ms (beginFrame s) (by rw [hstart, Nat.zero_add]; exact hcap) (by
    intro p _
    rw [beginFrame_tx_read, if_neg (by simp only [frameHdr]; omega)])
  rw [hstart, Nat.zero_add] at hcur
  rw [hstart] at hms
  have hscan := scan_of_packetsAt t.tx ms hms hcur hcap
  exact ⟨t, ht, hcur, hms, hscan, by rw [hscan, map_data_recordsFrom t.tx 0 ms hms]⟩

/-- Settles O15: the capacity check comes before the header is written. -/
theorem appendWritesOneHeaderOrFaults : Obligations.AppendWritesOneHeaderOrFaults := by
  refine ⟨encodesAs_append, fun s size svc cmd => ⟨fun hfits => ?_, fun hover => ?_⟩⟩
  · obtain ⟨t, ht, hts, hsize, hsvc, hcmd, hlen, hptr, hrem, hsame⟩ := append_header size svc cmd s hfits
    have hwindow : t.dptr.toNat + t.drem.toNat ≤ 240 := by
      have hround := roundup4_ge size.toNat
      rw [hptr, hrem]
      simp only [writeCursor, pktHdr]
      omega
    exact ⟨t, by rw [exec, execAppend, ht, State.finish_ok], keepsAllButTx_of_tx_window s t hts, hsize, hsvc, hcmd, hlen,
      hptr, hrem, hlen.trans_le hfits, hwindow, hsame⟩
  · exact ⟨_, by rw [exec, execAppend, append_overflow size svc cmd s hover, State.finish_error], onlyFaults_raise _ s⟩

/-- Settles O16: inside the payload capacity PUT_DATA is `put`, which writes one byte through an open window. -/
theorem putDataWritesOneByteOrFaults : Obligations.PutDataWritesOneByteOrFaults := by
  refine ⟨encodesAs_putData, fun s b hwindow => ⟨fun hopen => ?_, fun hclosed => ?_⟩⟩
  · have hrem : s.drem.toNat ≠ 0 := fun hzero => hopen (BitVec.eq_of_toNat_eq hzero)
    refine ⟨_, by rw [exec_putData b s hwindow, put_open b s hopen, State.finish_ok], keepsAllButTx_of_tx_window s _ rfl,
      by omega, Memory.read_write_same .., fun a ha => Memory.read_write_other _ _ _ _ ha, ?_, ?_⟩
    · exact (BitVec.toNat_add s.dptr 1).trans (Nat.mod_eq_of_lt (by simp; omega))
    · simp only [sub_one_toNat s.drem hopen]
      omega
  · exact ⟨_, by rw [exec_putData b s hwindow, put_closed b s hclosed, State.finish_error], onlyFaults_raise _ s⟩

/-- Settles O19: the invariant keeps TX 0 from payload_length on. -/
theorem readTxGivesTheByteOrFaults : Obligations.ReadTxGivesTheByteOrFaults := by
  refine ⟨encodesAs_readTx, fun s index => ⟨fun hin => ?_, fun hout => ?_⟩⟩
  · refine ⟨{ s with res := s.tx.read index.toNat }, by rw [exec, execReadTx, if_neg (Nat.not_le.mpr hin)],
      keepsAllButRes_of_res s _, rfl, fun hinv hbeyond => ?_⟩
    obtain ⟨p, hp⟩ := Nat.exists_eq_add_of_le (show frameHdr ≤ index.toNat by simp only [frameHdr]; omega)
    show s.tx.read index.toNat = 0
    rw [hp]
    exact hinv.beyondZero p (by simp only [writeCursor, frameHdr] at hp ⊢; omega)
  · exact ⟨_, by rw [exec, execReadTx, if_pos hout], onlyFaults_raise _ s⟩

/-- Settles O22: every packet takes at least 4 of at most 240 bytes, so the scan's 60 iterations reach the loop's end. -/
theorem scanFollowsTheLoop : Obligations.ScanFollowsTheLoop := by
  intro f
  have hbound : scanBound f ≤ 240 := Nat.min_le_right ..
  exact scannedFrom_scanFrom f (scanBound f) 60 0 (by omega)

/-- Settles O14, from what a byte of TX reads after BEGIN_FRAME. -/
theorem beginFrameClearsAndStamps : Obligations.BeginFrameClearsAndStamps := by
  refine ⟨⟨by decide, by decide⟩, fun s => ⟨beginFrame s, rfl, keepsAllButTx_of_tx_window s _ rfl,
    readLE_beginFrame_deviceId s, fun a ha => ?_, rfl, rfl⟩⟩
  rw [beginFrame_tx_read, if_neg (by omega)]

/-- Settles O18, from what a byte of TX reads after FINALIZE. -/
theorem finalizeStampsTheMagic : Obligations.FinalizeStampsTheMagic := by
  refine ⟨⟨by decide, by decide⟩, fun s => ⟨finalize s, rfl, keepsAllButTx_of_tx_window s _ rfl, ⟨rfl, rfl⟩, ?_, ?_,
    fun a ha => ?_⟩⟩
  · rw [finalize_tx_read, if_pos (by omega), BitVec.toNat_ofNat, Nat.pow_zero, Nat.div_one]
  · have := s.cfg.k.magic.isLt
    rw [finalize_tx_read, if_pos (by omega), BitVec.toNat_ofNat, Nat.pow_one, Nat.mod_eq_of_lt (by omega)]
  · rw [finalize_tx_read, if_neg (by omega)]

end Sys2Proof.Proofs
end

section
/-! PROOFS. The statements of 41_exchange.md: EXCHANGE, READ_RX and POLL_READY. -/

namespace Sys2Proof.Machine

/-! ### One frame each way (R75, R84) -/

/-- What an exchange sends is TX in address order (R84). -/
theorem bytesFrom_frameSize (m : Memory) : m.bytesFrom 0 frameSize = frameBytes m := by
  rw [Memory.bytesFrom, frameBytes, List.range_eq_range']

theorem validFrame_eq_decide (c : Config) (f : Memory) :
    validFrame c f = decide (f.readLE 0 2 = c.k.magic.toNat ∧ f.read 2 ≠ 0) :=
  (Bool.decide_and ..).symm

/-- An exchange touches RX, STATUS and the environment alone (R84). -/
theorem keepsAllButExchange_exchange (s : State) : KeepsAllButExchange s (exchange s) :=
  ⟨⟨exchange_cfg s, exchange_port s, exchange_resetIn s⟩, ⟨exchange_seq s, exchange_seqCol s⟩,
    ⟨exchange_dptr s, exchange_drem s⟩, ⟨exchange_btnCur s, exchange_btnPrev s⟩,
    fun a => congrArg (Memory.read · a) (exchange_tx s), fun a => congrArg (Memory.read · a) (exchange_fb s), exchange_res s⟩

/-! ### READ_RX and POLL_READY (R88, R89) -/

theorem encodesAs_readRx (index : Byte) : EncodesAs (0x09 + index.toNat * 2 ^ 8) (.readRx index) :=
  encodesAs_byteOperand (.readRx index) index (Laws.EncodedWord.readRx index) rfl fun cw hop hbyte => by
    rw [buildInstr, hop, hbyte]; rfl

/-- Writing STATUS and the environment changes nothing else (R89). -/
theorem keepsAllButStatusAndEnv_of_status_env (s : State) (status : Status) (env : Env) :
    KeepsAllButStatusAndEnv s { s with status := status, env := env } :=
  ⟨⟨rfl, rfl, rfl⟩, ⟨rfl, rfl⟩, ⟨rfl, rfl⟩, ⟨rfl, rfl⟩, fun _ => rfl, fun _ => rfl, fun _ => rfl, rfl⟩

end Sys2Proof.Machine

namespace Sys2Proof.Proofs

open Sys2Proof.Machine

/-- Settles O23: byte `i` of the new RX is the `i`-th draw, inside the frame only, and RXV is the validity of that RX. -/
theorem exchangeMovesOneFrameEachWay : Obligations.ExchangeMovesOneFrameEachWay := by
  refine ⟨⟨by decide, by decide⟩, fun s => ⟨exchange s, rfl, keepsAllButExchange_exchange s, ?_, fun i hi => ?_,
    fun i hi => ?_, ?_⟩⟩
  · rw [← bytesFrom_frameSize]
    exact exchange_onlySends s
  · rw [exchange_rx_read, if_pos hi]
  · rw [exchange_rx_read, if_neg (Nat.not_lt.mpr hi)]
  · rw [exchange_status, validFrame_eq_decide]

/-- Settles O24: the bounds check is all that READ_RX makes, RXV is not read. -/
theorem readRxGivesTheByteOrFaults : Obligations.ReadRxGivesTheByteOrFaults := by
  refine ⟨encodesAs_readRx, fun s index => ⟨fun hin => ?_, fun hout => ?_⟩⟩
  · exact ⟨{ s with res := s.rx.read index.toNat }, by rw [exec, execReadRx, if_neg (Nat.not_le.mpr hin)],
      keepsAllButRes_of_res s _, rfl⟩
  · exact ⟨_, by rw [exec, execReadRx, if_pos hout], onlyFaults_raise _ s⟩

/-- Settles O25: POLL_READY writes STATUS and draws its sample. -/
theorem pollReadySetsConnected : Obligations.PollReadySetsConnected :=
  ⟨⟨by decide, by decide⟩, fun s =>
    ⟨_, rfl, keepsAllButStatusAndEnv_of_status_env s _ _, s.env.onlySamples_afterSample, rfl⟩⟩

end Sys2Proof.Proofs
end

section
/-! PROOFS. The statements of 42_response_decoder.md: DECODE. -/

namespace Sys2Proof.Machine

/-! ### The first gamepad reading of a frame (R91) -/

theorem isReading_iff (c : Config) (p : Packet) :
    isReading c p = true ↔ p.svc = c.k.gamepadSvc ∧ p.cmd = c.k.cmdGetReading := by
  rw [isReading, Bool.and_eq_true, decide_eq_true_iff, decide_eq_true_iff]

theorem firstReading_eq_none (c : Config) (f : Memory)
    (h : ∀ q ∈ scan f, ¬ (q.svc = c.k.gamepadSvc ∧ q.cmd = c.k.cmdGetReading)) : firstReading c f = none :=
  List.find?_eq_none.mpr fun q hq => mt (isReading_iff c q).mp (h q hq)

/-- A reading behind packets that are none is the first one, whatever follows it (R91). -/
theorem firstReading_eq_some (c : Config) (f : Memory) (before after : List Packet) (p : Packet)
    (hscan : scan f = before ++ p :: after)
    (hbefore : ∀ q ∈ before, ¬ (q.svc = c.k.gamepadSvc ∧ q.cmd = c.k.cmdGetReading))
    (hp : p.svc = c.k.gamepadSvc ∧ p.cmd = c.k.cmdGetReading) : firstReading c f = some p := by
  refine List.find?_eq_some_iff_append.mpr ⟨(isReading_iff c p).mpr hp, before, after, hscan, fun q hq => ?_⟩
  rw [Bool.not_eq_true', Bool.eq_false_iff]
  exact mt (isReading_iff c q).mp (hbefore q hq)

/-! ### What `decode()` answers (R90) -/

theorem decodeResponse_of_not_fresh (s : State) (h : s.status.rxv = false ∨ s.status.rxd = true) :
    decodeResponse s = s := by
  rcases decodeResponse_cases s with ⟨_, hs⟩ | ⟨hrxv, hrxd, _⟩
  · exact hs
  · simp [hrxv, hrxd] at h

theorem decodeResponse_of_no_reading (s : State) (hrxv : s.status.rxv = true) (hrxd : s.status.rxd = false)
    (h : firstReading s.cfg s.rx = none) :
    decodeResponse s = { s with status := { s.status with rxd := true } } := by
  simpa [hrxv, hrxd, h] using decodeResponse_cases s

theorem decodeResponse_of_reading (s : State) (p : Packet) (hrxv : s.status.rxv = true) (hrxd : s.status.rxd = false)
    (h : firstReading s.cfg s.rx = some p) :
    decodeResponse s = { s with
      status := { s.status with rxd := true }, btnPrev := s.btnCur, btnCur := maskOfPairs (p.data s.rx) } := by
  simpa [hrxv, hrxd, h] using decodeResponse_cases s

/-- `decode()` touches STATUS and the button masks alone (R93). -/
theorem keepsAllButDecode_decodeResponse (s : State) : KeepsAllButDecode s (decodeResponse s) := by
  obtain ⟨hcfg, htx, hrx, hfb, hres, hdptr, hdrem, hseq, hseqCol, hport, hreset, henv, _⟩ := decodeResponse_frame s
  exact ⟨⟨hcfg, hport, hreset⟩, ⟨hseq, hseqCol⟩, ⟨hdptr, hdrem⟩, fun a => congrArg (Memory.read · a) htx,
    fun a => congrArg (Memory.read · a) hrx, fun a => congrArg (Memory.read · a) hfb, hres, henv⟩

/-! ### The mask of a reading (R90, R92) -/

theorem Packet.getD_data (f : Memory) (p : Packet) (j : Nat) (hj : j < p.size) :
    (p.data f).getD j 0 = f.read (frameHdr + p.off + pktHdr + j) :=
  Memory.getD_bytesFrom f _ _ j hj

/-- A reading's mask in terms of the frame's bytes: pair `k` lies in the data region, as `k < size / 2`. -/
theorem getLsbD_maskOfPairs_data (f : Memory) (p : Packet) (i : Nat) :
    (maskOfPairs (p.data f)).getLsbD i = true
      ↔ 1 ≤ i ∧ i ≤ 7 ∧ ∃ k, k < p.size / 2 ∧ (f.read (frameHdr + p.off + pktHdr + 2 * k)).toNat = i
          ∧ f.read (frameHdr + p.off + pktHdr + 2 * k + 1) ≠ 0 := by
  have hlength : (p.data f).length = p.size := Memory.length_bytesFrom ..
  rw [getLsbD_maskOfPairs, hlength]
  refine and_congr_right' (and_congr_right' (exists_congr fun k => and_congr_right fun hk => ?_))
  rw [p.getD_data f (2 * k) (by omega), p.getD_data f (2 * k + 1) (by omega), Nat.add_assoc _ (2 * k) 1]

end Sys2Proof.Machine

namespace Sys2Proof.Proofs

open Sys2Proof.Machine

/-- Settles O26: one equation of `decode()` for each of the three cases, which the premises on the scan tell apart through
its first reading. -/
theorem decodeRebuildsTheMasksOnce : Obligations.DecodeRebuildsTheMasksOnce := by
  refine ⟨⟨by decide, by decide⟩, fun s => ⟨fun hold => ?_, fun hrxv hrxd hnone => ?_,
    fun before after p hrxv hrxd hscan hbefore hsvc hcmd => ?_⟩⟩
  · rw [exec, execDecode, decodeResponse_of_not_fresh s hold]
  · have ht := decodeResponse_of_no_reading s hrxv hrxd (firstReading_eq_none s.cfg s.rx hnone)
    exact ⟨_, rfl, keepsAllButDecode_decodeResponse s, by rw [ht]; exact ⟨rfl, rfl⟩, by rw [ht]⟩
  · have ht := decodeResponse_of_reading s p hrxv hrxd
      (firstReading_eq_some s.cfg s.rx before after p hscan hbefore ⟨hsvc, hcmd⟩)
    refine ⟨_, rfl, keepsAllButDecode_decodeResponse s, by rw [ht], by rw [ht], fun i => ?_⟩
    rw [ht]
    exact getLsbD_maskOfPairs_data s.rx p i

end Sys2Proof.Proofs
end

section
/-! PROOFS. The statements of 43_framebuffer.md: CLEAR, SET_PIXEL, GET_PIXEL and FILL_RECT. -/

namespace Sys2Proof.Machine

/-! ### Words of the framebuffer's commands (R57 to R59) -/

/-- The field of a coordinate read from a 12-bit field is that field (R57). -/
theorem coordBits_toInt (v : BitVec 12) : coordBits v.toInt = v.toNat := by
  rw [coordBits, BitVec.ofInt_toInt]

/-- `extractLsb'_encode` for a coordinate or extent: the field read as a signed number (R57). -/
theorem coordField_encode (i : Instr) (lo : Nat) (v : BitVec 12) (h : Laws.EncodedWord.Statement i)
    (hv : (i.opcode + i.fieldBits) / 2 ^ lo % 2 ^ 12 = v.toNat) : coordField (encode i) lo = v.toInt := by
  rw [coordField, extractLsb'_encode i lo 12 v h hv]

/-- Formats P, G and R hold `x` and `y` right above the op (R58). -/
theorem coordField_encode_pixel (i : Instr) (x y : BitVec 12) (rest : Nat) (h : Laws.EncodedWord.Statement i)
    (hfields : i.fieldBits = x.toNat * 2 ^ 8 + y.toNat * 2 ^ 20 + rest * 2 ^ 32) :
    coordField (encode i) 8 = x.toInt ∧ coordField (encode i) 20 = y.toInt := by
  have := i.opcode_lt
  have := x.isLt
  have := y.isLt
  exact ⟨coordField_encode i 8 x h (by rw [hfields]; omega), coordField_encode i 20 y h (by rw [hfields]; omega)⟩

theorem encodesAs_clear (color : BitVec 4) : EncodesAs (0x10 + color.toNat * 2 ^ 8) (.clear color) := by
  have hword := Laws.EncodedWord.clear color
  have := color.isLt
  have hcolor := extractLsb'_encode _ 8 4 color hword (by simp only [Instr.opcode, Instr.fieldBits]; omega)
  exact encodesAs_of_encodedWord _ hword (by rw [buildInstr, toNat_opOf_encode _ hword, hcolor]; rfl)

theorem encodesAs_setPixel (x y : BitVec 12) (color : BitVec 4) :
    EncodesAs (0x11 + x.toNat * 2 ^ 8 + y.toNat * 2 ^ 20 + color.toNat * 2 ^ 32) (.setPixel x.toInt y.toInt color) := by
  have hword := Laws.EncodedWord.setPixel x.toInt y.toInt color
  have hfields : (Instr.setPixel x.toInt y.toInt color).fieldBits
      = x.toNat * 2 ^ 8 + y.toNat * 2 ^ 20 + color.toNat * 2 ^ 32 := by
    simp only [Instr.fieldBits, coordBits_toInt]
  have := x.isLt
  have := y.isLt
  have := color.isLt
  obtain ⟨hx, hy⟩ := coordField_encode_pixel _ x y color.toNat hword hfields
  have hcolor := extractLsb'_encode _ 32 4 color hword (by simp only [hfields, Instr.opcode]; omega)
  have hencodes := encodesAs_of_encodedWord _ hword (by
    rw [buildInstr, toNat_opOf_encode _ hword, hx, hy, hcolor]
    rfl)
  simpa only [hfields, Instr.opcode, Nat.add_assoc] using hencodes

theorem encodesAs_getPixel (x y : BitVec 12) :
    EncodesAs (0x12 + x.toNat * 2 ^ 8 + y.toNat * 2 ^ 20) (.getPixel x.toInt y.toInt) := by
  have hword := Laws.EncodedWord.getPixel x.toInt y.toInt
  have hfields : (Instr.getPixel x.toInt y.toInt).fieldBits = x.toNat * 2 ^ 8 + y.toNat * 2 ^ 20 := by
    simp only [Instr.fieldBits, coordBits_toInt]
  obtain ⟨hx, hy⟩ := coordField_encode_pixel _ x y 0 hword (by rw [hfields]; omega)
  have hencodes := encodesAs_of_encodedWord _ hword (by
    rw [buildInstr, toNat_opOf_encode _ hword, hx, hy]
    rfl)
  simpa only [hfields, Instr.opcode, Nat.add_assoc] using hencodes

theorem encodesAs_fillRect (x y w h : BitVec 12) (color : BitVec 4) :
    EncodesAs (0x13 + x.toNat * 2 ^ 8 + y.toNat * 2 ^ 20 + w.toNat * 2 ^ 32 + h.toNat * 2 ^ 44 + color.toNat * 2 ^ 56)
      (.fillRect x.toInt y.toInt w.toInt h.toInt color) := by
  have hword := Laws.EncodedWord.fillRect x.toInt y.toInt w.toInt h.toInt color
  have hfields : (Instr.fillRect x.toInt y.toInt w.toInt h.toInt color).fieldBits
      = x.toNat * 2 ^ 8 + y.toNat * 2 ^ 20 + w.toNat * 2 ^ 32 + h.toNat * 2 ^ 44 + color.toNat * 2 ^ 56 := by
    simp only [Instr.fieldBits, coordBits_toInt]
  have := x.isLt
  have := y.isLt
  have := w.isLt
  have := h.isLt
  have := color.isLt
  obtain ⟨hx, hy⟩ := coordField_encode_pixel _ x y (w.toNat + h.toNat * 2 ^ 12 + color.toNat * 2 ^ 24)
    hword (by rw [hfields]; omega)
  have hw := coordField_encode _ 32 w hword (by simp only [hfields, Instr.opcode]; omega)
  have hh := coordField_encode _ 44 h hword (by simp only [hfields, Instr.opcode]; omega)
  have hcolor := extractLsb'_encode _ 56 4 color hword (by simp only [hfields, Instr.opcode]; omega)
  have hencodes := encodesAs_of_encodedWord _ hword (by
    rw [buildInstr, toNat_opOf_encode _ hword, hx, hy, hw, hh, hcolor]
    rfl)
  simpa only [hfields, Instr.opcode, Nat.add_assoc] using hencodes

/-! ### Nibbles and bytes (R43, R94, R95) -/

/-- Writing FB changes nothing else (R26). -/
theorem keepsAllButFb_of_fb (s : State) (fb : Memory) : KeepsAllButFb s { s with fb := fb } :=
  ⟨⟨rfl, rfl, rfl⟩, ⟨rfl, rfl⟩, ⟨rfl, rfl⟩, ⟨rfl, rfl⟩, fun _ => rfl, fun _ => rfl, rfl, rfl, rfl⟩

/-- A byte of two equal nibbles, as R96 writes it. -/
theorem append_self_eq_or_shiftLeft (color : BitVec 4) :
    (color ++ color : BitVec 8) = color.setWidth 8 ||| (color.setWidth 8 <<< 4) := by
  revert color
  decide

/-- On a row of the grid the parity of the row as an integer picks the nibble. -/
theorem lowNibble_iff (y : Int) (h : 0 ≤ y) : lowNibble y = true ↔ y % 2 = 0 := by
  rw [lowNibble, beq_iff_eq]
  omega

/-- A nibble as a byte, by the mask and the shift of R94. -/
theorem setWidth_nibble (low : Bool) (b : Byte) :
    (nibble low b).setWidth 8 = if low then b &&& 0x0F#8 else b >>> 4 := by
  have hfield (lo : Nat) : ((b.extractLsb' lo 4).setWidth 8).toNat = b.toNat / 2 ^ lo % 2 ^ 4 := by
    rw [BitVec.toNat_setWidth_of_le (by decide), BitVec.extractLsb'_toNat, Nat.shiftRight_eq_div_pow]
  refine BitVec.eq_of_toNat_eq ?_
  cases low with
  | true => exact (hfield 0).trans (by rw [Nat.pow_zero, Nat.div_one]; exact (Nat.and_two_pow_sub_one_eq_mod _ 4).symm)
  | false =>
    have := b.isLt
    refine (hfield 4).trans ((Nat.mod_eq_of_lt (by omega)).trans ?_)
    exact (Nat.shiftRight_eq_div_pow _ 4).symm

theorem setPx_of_inb (c : Config) (x y : Int) (color : BitVec 4) (fb : Memory) (h : inb c x y = true) :
    setPx c x y color fb = fb.write (fbidx c x y) (setNibble (lowNibble y) (fb.read (fbidx c x y)) color) := if_pos h

theorem setPx_of_not_inb (c : Config) (x y : Int) (color : BitVec 4) (fb : Memory) (h : inb c x y = false) :
    setPx c x y color fb = fb := if_neg (by rw [h]; decide)

/-! ### Rectangles (R99) -/

/-- The pixels a clipped rectangle covers: those of the grid inside the rectangle. -/
theorem mem_clipped_iff_inb (c : Config) (x y w h x' y' : Int) :
    x' ∈ clipped x w c.W ∧ y' ∈ clipped y h c.H
      ↔ inb c x' y' = true ∧ x ≤ x' ∧ x' < x + w ∧ y ≤ y' ∧ y' < y + h := by
  rw [mem_clipped, mem_clipped, inb_iff]
  tauto

/-- Filling rows writes no byte but those that hold a pixel filled. -/
theorem fillRows_read_other (c : Config) (xs ys : List Int) (color : BitVec 4) (fb : Memory) (a : Nat)
    (h : ∀ x ∈ xs, ∀ y ∈ ys, inb c x y = true → a ≠ fbidx c x y) :
    (fillRows c xs ys color fb).read a = fb.read a := by
  refine List.foldlRecOn (motive := fun m : Memory => m.read a = fb.read a) ys _ rfl fun m hm y hy => ?_
  refine List.foldlRecOn (motive := fun m : Memory => m.read a = fb.read a) xs _ hm fun m hm x hx => ?_
  exact (setPx_read_other c m x y color a (h x hx y hy)).trans hm

end Sys2Proof.Machine

namespace Sys2Proof.Proofs

open Sys2Proof.Machine

/-- Settles O27, from what a byte of FB reads after CLEAR. -/
theorem clearFillsEveryPixel : Obligations.ClearFillsEveryPixel := by
  refine ⟨encodesAs_clear, fun s color => ⟨_, rfl, keepsAllButFb_of_fb s _, fun a ha => ?_, fun a ha => ?_,
    fun x y hxy => ?_⟩⟩
  · rw [← append_self_eq_or_shiftLeft]
    exact (read_clear s.cfg color a).trans (if_pos ha)
  · exact (read_clear s.cfg color a).trans (if_neg (Nat.not_lt.mpr ha))
  · have hin := (inb_iff s.cfg x y).mpr hxy
    rw [getPx_eq, if_pos hin, read_clear, if_pos (fbidx_lt s.cfg x y hin), nibble_both]

/-- Settles O28: in the grid `set_px` is one write of one byte, outside it none. -/
theorem setPixelWritesOneNibble : Obligations.SetPixelWritesOneNibble := by
  refine ⟨encodesAs_setPixel, fun s x y color => ⟨{ s with fb := setPx s.cfg x y color s.fb }, rfl,
    keepsAllButFb_of_fb s _, fun hin => ⟨?_, fun a ha => ?_, ?_⟩, fun hout a => ?_, fun x' y' hother => ?_⟩⟩
  · obtain ⟨_, _, hy, _⟩ := (inb_iff s.cfg x y).mp hin
    simp only [setPx_of_inb s.cfg x y color s.fb hin, Memory.read_write_same, setNibble, lowNibble_iff y hy]
  · exact setPx_read_other s.cfg s.fb x y color a fun _ => ha
  · exact (getPx_setPx ..).trans (if_pos ⟨rfl, rfl, hin⟩)
  · exact congrArg (Memory.read · a) (setPx_of_not_inb s.cfg x y color s.fb hout)
  · exact (getPx_setPx ..).trans (if_neg fun ⟨hx, hy, _⟩ => hother ⟨hx, hy⟩)

/-- Settles O29: RES is the pixel's nibble as a byte. -/
theorem getPixelReadsTheNibble : Obligations.GetPixelReadsTheNibble := by
  refine ⟨encodesAs_getPixel, fun s x y => ⟨_, rfl, keepsAllButRes_of_res s _, ?_⟩⟩
  show (getPx s.cfg s.fb x y).setWidth 8 = _
  simp only [getPx_eq, ← inb_iff]
  split
  next hin =>
    obtain ⟨_, _, hy, _⟩ := (inb_iff s.cfg x y).mp hin
    simp only [setWidth_nibble, lowNibble_iff y hy]
    rfl
  next => rfl

/-- Settles O30: the clipped ranges are the pixels of the grid inside the rectangle, and filling writes their bytes. -/
theorem fillRectFillsTheClippedRectangle : Obligations.FillRectFillsTheClippedRectangle := by
  refine ⟨encodesAs_fillRect, fun s x y w h color => ⟨_, rfl, keepsAllButFb_of_fb s _, fun x' y' => ?_,
    fun a ha => ?_⟩⟩
  · rw [getPx_fillRows s.cfg _ _ color s.fb x' y' fun u hu v hv =>
      ((mem_clipped_iff_inb s.cfg x y w h u v).mp ⟨hu, hv⟩).1]
    simp only [mem_clipped_iff_inb]
  · refine fillRows_read_other s.cfg _ _ color s.fb a fun u hu v hv hin => ?_
    exact ha u v hin ((mem_clipped_iff_inb s.cfg x y w h u v).mp ⟨hu, hv⟩).2

end Sys2Proof.Proofs
end

section
/-! PROOFS. The statements of 44_serializer.md: the serializer's freedom from faults and the steps of a push. -/

namespace Sys2Proof.Machine

/-! ### The formatting commands, in terms of the serializer's functions (R103, R104) -/

theorem exec_formatBeginUpdate (s t : State) (ht : formatBeginUpdate s = .ok t) :
    exec .formatBeginUpdate s = .next t := by
  rw [exec, execFormatBeginUpdate, ht, State.finish_ok]

theorem exec_formatBatch (col : BitVec 12) (s t : State) (hcol : col.toNat < s.cfg.W)
    (ht : formatBatch col.toNat s = .ok t) : exec (.formatBatch col) s = .next t := by
  rw [exec, execFormatBatch, if_neg (Nat.not_le.mpr hcol), ht, State.finish_ok]

/-! ### The start step of a push (R105) -/

theorem exec_pushFramebuffer_unconnected (s : State) (hc : s.status.connected = false) :
    exec .pushFramebuffer s = .next s := by
  rw [exec, execPushFramebuffer, if_neg (by simp [hc])]

theorem exec_pushFramebuffer_connected (s t : State) (hc : s.status.connected = true) (ht : startPush s = .ok t) :
    exec .pushFramebuffer s = .next t := by
  rw [exec, execPushFramebuffer, if_pos hc, ht, State.finish_ok]

/-! ### The batch step (R106) -/

/-- While a push is in progress, a step on a false sample draws the sample and does nothing else. -/
theorem step_wait_false (s : State) (hr : s.resetIn = false) (hs : s.seq = .wait) (hn : s.env.nextReady = false) :
    step s = .next { s with env := s.env.afterSample } := by
  rw [step_wait s hr hs, pushBatch_false s hn]

/-- While a push is in progress, a step on a true sample sends the batch at SEQ_COL, and the sequencer moves on. -/
theorem step_wait_true (s : State) (hr : s.resetIn = false) (hs : s.seq = .wait) (hn : s.env.nextReady = true) :
    ∃ u, formatBatch s.seqCol.toNat { s with env := s.env.afterSample } = .ok u
      ∧ step s = .next (advance (exchangeAndDecode u)) := by
  obtain ⟨u, hu, hpush⟩ := pushBatch_true s hn
  exact ⟨u, hu, by rw [step_wait s hr hs, hpush]⟩

/-- Formatting, exchanging and decoding a batch move neither the configuration nor SEQ_COL. -/
theorem exchangeAndDecode_formatBatch_keeps (col : Nat) (s u : State) (hu : formatBatch col s = .ok u) :
    (exchangeAndDecode u).cfg = s.cfg ∧ (exchangeAndDecode u).seqCol = s.seqCol := by
  obtain ⟨t, ht, hframe, _⟩ := formatBatch_ok col s
  obtain rfl : u = t := Except.ok.inj (hu.symm.trans ht)
  obtain ⟨hcfg, _, _, _, _, _, _, _, hcol, _⟩ := keeps_of_tx_window s u hframe
  obtain ⟨hcfg', _, _, _, _, _, _, _, hcol', _⟩ := exchangeAndDecode_frame u
  exact ⟨hcfg'.trans hcfg, hcol'.trans hcol⟩

/-- The sequencer's move, told by the column and the width of the state before the batch. -/
theorem advance_eq (s w : State) (hcfg : w.cfg = s.cfg) (hcol : w.seqCol = s.seqCol) :
    advance w = if s.cfg.W ≤ s.seqCol.toNat + 3 then
        { w with seq := .idle, seqCol := 0, status := { w.status with busy := false } }
      else { w with seqCol := BitVec.ofNat 12 (s.seqCol.toNat + 3) } := by
  rw [advance, hcfg, hcol]

/-! ### The stall (R109) -/

theorem Env.nextReady_of_cons (e : Env) (b : Bool) (rest : List Bool) (h : e.readyIn = b :: rest) :
    e.nextReady = b := by
  rw [Env.nextReady, h]

/-- A run over false samples alone draws them, one for each step, and does nothing else. -/
theorem run_false_samples (k : Nat) (s : State) (r : List Bool) (hr : s.resetIn = false) (hs : s.seq = .wait)
    (hin : s.env.readyIn = List.replicate k false ++ r) :
    Host.Core.run Sys2Proof.core k s
      = .next { s with env := { s.env with readyIn := r, samples := s.env.samples + k } } := by
  induction k generalizing s with
  | zero =>
    obtain rfl : s.env.readyIn = r := hin
    rfl
  | succ k ih =>
    have hcons : s.env.readyIn = false :: (List.replicate k false ++ r) := hin
    have hstep := step_wait_false s hr hs (s.env.nextReady_of_cons _ _ hcons)
    have hrest : s.env.afterSample.readyIn = List.replicate k false ++ r := by
      rw [Env.afterSample_readyIn, hcons, List.tail_cons]
    rw [run_succ k s _ hstep, ih { s with env := s.env.afterSample } hr hs hrest, Env.afterSample, Nat.add_right_comm,
      Nat.add_assoc]

end Sys2Proof.Machine

namespace Sys2Proof.Proofs

open Sys2Proof.Machine

/-- Settles O33: each function of the serializer has its frame lemma, and SEQ_COL at or beyond W formats a frame without
packets. -/
theorem serializerNeverFaults : Obligations.SerializerNeverFaults := by
  intro s
  obtain ⟨t, hupdate, _⟩ := formatBeginUpdate_ok s
  obtain ⟨_, _, hstart⟩ := startPush_ok s
  obtain ⟨_, _, hsend⟩ := sendBatch_ok s
  refine ⟨⟨t, hupdate⟩, fun col _ => ?_, ⟨_, hstart⟩, ⟨_, hsend⟩⟩
  obtain ⟨u, hbatch, _⟩ := formatBatch_ok col s
  exact ⟨u, hbatch⟩

/-- Settles O34: the start step is the three commands' functions in a row. -/
theorem pushStartsOrIsSkipped : Obligations.PushStartsOrIsSkipped := by
  refine ⟨⟨by decide, by decide⟩, fun s => ⟨exec_pushFramebuffer_unconnected s, fun hc => ?_⟩⟩
  obtain ⟨u, hu, hstart⟩ := startPush_ok s
  exact ⟨u, exchange u, exchangeAndDecode u, exec_formatBeginUpdate s u hu, rfl, rfl,
    exec_pushFramebuffer_connected s _ hc hstart⟩

/-- Settles O35: the batch is the three commands' functions in a row, and none of them moves the sequencer. -/
theorem batchStepWaitsOrSends : Obligations.BatchStepWaitsOrSends := by
  intro s hr hs hcol
  refine ⟨fun hn => ?_, fun hn => ?_⟩
  · exact ⟨_, step_wait_false s hr hs hn, keepsAllButStatusAndEnv_of_status_env s _ _, rfl,
      s.env.onlySamples_afterSample⟩
  · obtain ⟨u, hu, hstep⟩ := step_wait_true s hr hs hn
    obtain ⟨hcfg, hkept⟩ := exchangeAndDecode_formatBatch_keeps _ _ u hu
    refine ⟨u, exchange u, exchangeAndDecode u, exec_formatBatch _ _ u hcol hu, rfl, rfl, ?_⟩
    rw [hstep, advance_eq s _ hcfg hkept]

/-- Settles O36: the state after `k` false samples is known in full. -/
theorem pushStallsWhileNotReady : Obligations.PushStallsWhileNotReady :=
  fun k s r hr hs hin => ⟨_, run_false_samples k s r hr hs hin, keepsAllButStatusAndEnv_of_status_env s _ _, rfl, rfl, rfl,
    rfl, rfl, rfl⟩

end Sys2Proof.Proofs
end

section
/-! PROOFS. The statements of 45_buttons.md: what the button queries answer. -/

namespace Sys2Proof.Machine

/-! ### Words of the queries -/

theorem encodesAs_isPressed (mask : Byte) : EncodesAs (0x20 + mask.toNat * 2 ^ 8) (.isPressed mask) :=
  encodesAs_byteOperand (.isPressed mask) mask (Laws.EncodedWord.isPressed mask) rfl fun cw hop hbyte => by
    rw [buildInstr, hop, hbyte]; rfl

theorem encodesAs_isDown (mask : Byte) : EncodesAs (0x21 + mask.toNat * 2 ^ 8) (.isDown mask) :=
  encodesAs_byteOperand (.isDown mask) mask (Laws.EncodedWord.isDown mask) rfl fun cw hop hbyte => by
    rw [buildInstr, hop, hbyte]; rfl

theorem encodesAs_isUp (mask : Byte) : EncodesAs (0x22 + mask.toNat * 2 ^ 8) (.isUp mask) :=
  encodesAs_byteOperand (.isUp mask) mask (Laws.EncodedWord.isUp mask) rfl fun cw hop hbyte => by
    rw [buildInstr, hop, hbyte]; rfl

/-! ### What a query asks (R110) -/

theorem anyButton_eq_true_iff (set mask : Byte) : anyButton set mask = true ↔ set &&& mask ≠ 0 := bne_iff_ne

theorem anyButton_eq_false_iff (set mask : Byte) : anyButton set mask = false ↔ set &&& mask = 0 := bne_eq_false_iff_eq

/-- Asked for bit 0 alone, a set without it holds no button of the mask (R110, R34). -/
theorem anyButton_one_of_bit0 (set : Byte) (h : set.getLsbD 0 = false) : anyButton set 1 = false := by
  rw [anyButton_eq_false_iff]
  refine BitVec.eq_of_getLsbD_eq fun k _ => ?_
  cases k with
  | zero => rw [BitVec.getLsbD_and, h]; rfl
  | succ k => simp [BitVec.getLsbD_one]

/-! ### What a query answers -/

/-- A command `i` that answers the flag `b` in RES answers the formula `p` of `b`, changes nothing else, and answers 0 where the
flag is 0. -/
theorem query_answers (i : Instr) (s : State) (b : Bool) (p zero : Prop) [Decidable p]
    (hexec : exec i s = .next { s with res := flagByte b }) (hp : b = true ↔ p) (hzero : zero → b = false) :
    ∃ t, exec i s = .next t ∧ KeepsAllButRes s t ∧ t.res = (if p then 1 else 0) ∧ (zero → t.res = 0) := by
  refine ⟨_, hexec, keepsAllButRes_of_res s _, ?_, fun h => ?_⟩
  · exact if_congr hp rfl rfl
  · exact congrArg flagByte (hzero h)

end Sys2Proof.Machine

namespace Sys2Proof.Proofs

open Sys2Proof.Machine

/-- Settles O39: each query's flag is its formula, and the invariant keeps bit 0 of both masks 0. -/
theorem buttonQueriesAnswerTheFormulas : Obligations.ButtonQueriesAnswerTheFormulas := by
  refine ⟨fun mask => ⟨encodesAs_isPressed mask, encodesAs_isDown mask, encodesAs_isUp mask⟩, fun s mask => ?_⟩
  have hcur : Inv s ∧ mask = 1 → anyButton s.btnCur mask = false := by
    rintro ⟨hinv, rfl⟩
    exact anyButton_one_of_bit0 _ hinv.curBit0
  have hprev : Inv s ∧ mask = 1 → anyButton s.btnPrev mask = false := by
    rintro ⟨hinv, rfl⟩
    exact anyButton_one_of_bit0 _ hinv.prevBit0
  simp only [← and_imp]
  refine ⟨query_answers (.isPressed mask) s _ _ _ rfl (anyButton_eq_true_iff _ _) hcur,
    query_answers (.isDown mask) s _ _ _ rfl ?_ fun h => ?_, query_answers (.isUp mask) s _ _ _ rfl ?_ fun h => ?_⟩
  · rw [Bool.and_eq_true, Bool.not_eq_true', anyButton_eq_true_iff, anyButton_eq_false_iff]
  · rw [hcur h, Bool.false_and]
  · rw [Bool.and_eq_true, Bool.not_eq_true', anyButton_eq_true_iff, anyButton_eq_false_iff]
  · rw [hprev h, Bool.and_false]

end Sys2Proof.Proofs
end

section
/-! PROOFS. The statement of 60_exceptions.md: faults are precise. -/

namespace Sys2Proof

/-- The codes a command can record, each with its commands (R115). -/
theorem Instr.commands_of_faultCode (i : Instr) (code : Machine.FaultCode) (h : i.faultCode = some code) :
    (code = .appendOverflow ∧ ∃ size svc cmd, i = .append size svc cmd)
      ∨ (code = .dataWindow ∧ ∃ b, i = .putData b)
      ∨ (code = .indexRange ∧ ((∃ x, i = .readTx x) ∨ (∃ x, i = .readRx x) ∨ ∃ c, i = .formatBatch c)) := by
  cases i with
  | append size svc cmd => cases h; exact .inl ⟨rfl, size, svc, cmd, rfl⟩
  | putData b => cases h; exact .inr (.inl ⟨rfl, b, rfl⟩)
  | readTx x => cases h; exact .inr (.inr ⟨rfl, .inl ⟨x, rfl⟩⟩)
  | readRx x => cases h; exact .inr (.inr ⟨rfl, .inr (.inl ⟨x, rfl⟩)⟩)
  | formatBatch c => cases h; exact .inr (.inr ⟨rfl, .inr (.inr ⟨c, rfl⟩)⟩)
  | _ => cases h

end Sys2Proof

namespace Sys2Proof.Machine

theorem decodeResponse_fault (s : State) : (decodeResponse s).status.fault = s.status.fault := by
  obtain ⟨_, _, _, _, _, _, _, _, _, _, _, _, _, _, _, hfault, _⟩ := decodeResponse_frame s
  exact hfault

theorem exchangeAndDecode_fault (s : State) : (exchangeAndDecode s).status.fault = s.status.fault :=
  decodeResponse_fault (exchange s)

/-- The start step of a push never faults: its frame, its exchange and its decode leave FAULT as it was (R102, R105). -/
theorem startPush_fault (s t : State) (h : startPush s = .ok t) : t.status.fault = s.status.fault := by
  obtain ⟨u, hu, hstart⟩ := startPush_ok s
  obtain rfl := Except.ok.inj (hstart.symm.trans h)
  obtain ⟨v, hv, hframe, _⟩ := formatBeginUpdate_ok s
  obtain rfl := Except.ok.inj (hu.symm.trans hv)
  calc (exchangeAndDecode u).status.fault
      _ = u.status.fault := exchangeAndDecode_fault u
      _ = s.status.fault := by rw [hframe]

/-- A command that writes FAULT ends with its own fault recorded and nothing else written; of all the ends of `ExecEnds` no
other one writes FAULT (R116). -/
theorem ExecEnds.raised_of_fault_ne {i : Instr} {s t : State} (h : ExecEnds i s t)
    (hne : t.status.fault ≠ s.status.fault) : ∃ code, i.faultCode = some code ∧ t = s.raise code := by
  cases h with
  | faulted code hcode => exact ⟨code, hcode, rfl⟩
  | decoded => exact absurd (decodeResponse_fault s) hne
  | pushStarted _ _ _ ht => exact absurd (startPush_fault s t ht) hne
  | built | drawn | answered | exchanged | polled | pushSkipped => exact absurd rfl hne

end Sys2Proof.Machine

namespace Sys2Proof.Proofs

open Sys2Proof.Machine

/-- Settles O45: FAULT goes from 0 to 1, so the command ended with its own fault. -/
theorem faultsArePrecise : Obligations.FaultsArePrecise := by
  intro i s t hexec hclear hset
  have hne : t.status.fault ≠ s.status.fault := by simp [hclear, hset]
  obtain ⟨code, hcode, rfl⟩ := (exec_ends i s t hexec).raised_of_fault_ne hne
  exact ⟨code, rfl, i.commands_of_faultCode code hcode⟩

end Sys2Proof.Proofs
end

section
/-! PROOFS. The statement of 70_reset_and_hazards.md: what a step leaves when the reset input is asserted. -/

namespace Sys2Proof.Proofs

open Sys2Proof.Machine

/-- Settles O4: the step is `applyReset`, which leaves the three stores empty and `Status.reset` in STATUS. -/
theorem resetLeavesTheResetTable : Obligations.ResetLeavesTheResetTable := by
  intro s hr
  refine ⟨s.applyReset, step_reset s hr, Memory.read_nil, Memory.read_nil, Memory.read_nil, ?_⟩
  simp [Status.reset]

end Sys2Proof.Proofs
end

section
/-! PROOFS. The statements about the whole machine: the command words in both directions, the reset state, the invariant,
what each command leaves alone, and a whole push. -/

namespace Sys2Proof

/-! ### From the command to the word (R57 to R59) -/

/-- The coordinates in range are the values of the 12-bit fields (R57). -/
theorem coordFits_iff_exists_field (v : Int) : coordFits v = true ↔ ∃ b : BitVec 12, b.toInt = v := by
  refine ⟨fun h => ⟨_, toInt_coordBits v h⟩, ?_⟩
  rintro ⟨b, rfl⟩
  have hlow := b.le_toInt
  have hhigh := b.toInt_lt
  rw [coordFits, Bool.and_eq_true, decide_eq_true_eq, decide_eq_true_eq]
  omega

/-- The op and the operand fields of a well-formed command are a word of it. -/
theorem encodesAs_of_wf (i : Instr) (h : i.wf = true) : Machine.EncodesAs (i.opcode + i.fieldBits) i := by
  cases i with
  | append size svc cmd =>
    simpa only [Instr.opcode, Instr.fieldBits, Nat.add_assoc] using Machine.encodesAs_append size svc cmd
  | putData b => exact Machine.encodesAs_putData b
  | readTx index => exact Machine.encodesAs_readTx index
  | readRx index => exact Machine.encodesAs_readRx index
  | clear color => exact Machine.encodesAs_clear color
  | setPixel x y color =>
    simp only [Instr.wf, Bool.and_eq_true, coordFits_iff_exists_field] at h
    obtain ⟨⟨x, rfl⟩, ⟨y, rfl⟩⟩ := h
    simpa only [Instr.opcode, Instr.fieldBits, Machine.coordBits_toInt, Nat.add_assoc]
      using Machine.encodesAs_setPixel x y color
  | getPixel x y =>
    simp only [Instr.wf, Bool.and_eq_true, coordFits_iff_exists_field] at h
    obtain ⟨⟨x, rfl⟩, ⟨y, rfl⟩⟩ := h
    simpa only [Instr.opcode, Instr.fieldBits, Machine.coordBits_toInt, Nat.add_assoc]
      using Machine.encodesAs_getPixel x y
  | fillRect x y w h' color =>
    simp only [Instr.wf, Bool.and_eq_true, coordFits_iff_exists_field] at h
    obtain ⟨⟨⟨⟨x, rfl⟩, ⟨y, rfl⟩⟩, ⟨w, rfl⟩⟩, ⟨h', rfl⟩⟩ := h
    simpa only [Instr.opcode, Instr.fieldBits, Machine.coordBits_toInt, Nat.add_assoc]
      using Machine.encodesAs_fillRect x y w h' color
  | formatBatch col => exact Machine.encodesAs_formatBatch col
  | isPressed mask => exact Machine.encodesAs_isPressed mask
  | isDown mask => exact Machine.encodesAs_isDown mask
  | isUp mask => exact Machine.encodesAs_isUp mask
  | beginFrame | finalize | exchange | pollReady | decode | formatBeginUpdate | pushFramebuffer =>
    exact ⟨by decide, by decide⟩

/-! ### From the word to the command (R57 to R60) -/

theorem coordFits_coordField (cw : Word) (lo : Nat) : coordFits (coordField cw lo) = true :=
  (coordFits_iff_exists_field _).mpr ⟨_, rfl⟩

theorem coordBits_coordField (cw : Word) (lo : Nat) : coordBits (coordField cw lo) = cw.toNat / 2 ^ lo % 2 ^ 12 := by
  rw [coordField, Machine.coordBits_toInt, toNat_field]

/-- A command built from a word is well-formed, as its coordinates come from 12-bit fields (R57). -/
theorem wf_of_buildInstr (cw : Word) (i : Instr) (h : buildInstr cw = some i) : i.wf = true := by
  unfold buildInstr at h
  split at h <;> cases h <;> simp only [Instr.wf, coordFits_coordField, Bool.and_self]

/-- A word with every bit above its format's width 0 is its op and its operand fields, at their places (R58). -/
theorem opcode_add_fieldBits_of_buildInstr (cw : Word) (i : Instr) (h : buildInstr cw = some i)
    (hsmall : cw.toNat < 2 ^ formatWidth i.format) : i.opcode + i.fieldBits = cw.toNat := by
  have hop := toNat_opOf cw
  unfold buildInstr at h
  split at h <;> cases h <;>
    simp only [Instr.opcode, Instr.fieldBits, Instr.format, formatWidth, coordBits_coordField, toNat_field]
      at hsmall ⊢ <;>
    omega

/-- An op value of no format is in the list of R60: it is none of the values in the opcode map. -/
theorem reservedOp_of_opFormat (cw : Word) (h : opFormat (opOf cw) = none) : Machine.ReservedOp cw := by
  have hlt := (opOf cw).isLt
  unfold Machine.ReservedOp
  unfold opFormat at h
  split at h <;> cases h
  simp only [imp_false] at *
  omega

/-- With no reserved-zero bit set a word is small enough for its format (R58, R60). -/
theorem toNat_lt_of_not_reservedBitSet (cw : Word) (f : Format) (hf : opFormat (opOf cw) = some f)
    (h : ¬ Machine.ReservedBitSet cw) : cw.toNat < 2 ^ formatWidth f := by
  refine Nat.lt_pow_two_of_testBit _ fun b hb => ?_
  rw [BitVec.testBit_toNat, Bool.eq_false_iff]
  intro hbit
  have h8 := (formatWidth_ge f).trans hb
  refine h ⟨f, b, hf, h8, ?_, hbit⟩
  rw [formatMask_getLsbD f b (BitVec.lt_of_getLsbD hbit)]
  simp [hb]

end Sys2Proof

namespace Sys2Proof.Machine

/-! ### Two frames alike below payload_length (R76) -/

theorem scan_congr (f g : Memory) (hlen : g.read 2 = f.read 2)
    (h : ∀ a, frameHdr ≤ a → a < frameHdr + scanBound f → g.read a = f.read a) : scan g = scan f := by
  have hbound : scanBound g = scanBound f := by rw [scanBound, hlen, scanBound]
  rw [scan, hbound, scanFrom_congr f g _ _ _ h, scan]

/-- The data of a scanned packet lie below the bound of the scan. -/
theorem data_congr_of_mem_scan (f g : Memory) (p : Packet) (hp : p ∈ scan f)
    (h : ∀ a, frameHdr ≤ a → a < frameHdr + scanBound f → g.read a = f.read a) : p.data g = p.data f := by
  obtain ⟨_, _, hinside, _⟩ := scanFrom_mem f _ _ _ p hp
  exact Memory.bytesFrom_congr g f _ _ fun k hk => h _ (by omega) (by omega)

/-! ### The machine right after reset (R128) -/

theorem hostRead_resetWith (c : Config) (a : Nat) : (State.resetWith c).hostRead a = 0 := by
  match a with
  | 0 => exact (by decide : Status.reset.word = 0)
  | 1 => rfl
  | 2 => exact (by decide : (0 : Byte) ++ (0 : Byte) = (0 : BitVec 16))
  | a + 3 => exact State.hostRead_reserved _ _ (by omega)

theorem Inv.resetWith (c : Config) : Inv (State.resetWith c) where
  txForm := Memory.wf_nil
  txSize := Memory.within_nil _
  rxForm := Memory.wf_nil
  rxSize := Memory.within_nil _
  fbForm := Memory.wf_nil
  fbSize := Memory.within_nil _
  cursorAligned := rfl
  cursorFits := Nat.zero_le _
  beyondZero _ _ := Memory.read_nil _
  windowFits := Nat.le_refl 0
  rxvValid := (validFrame_nil c).symm
  seqBusy := ⟨fun h => (by cases h), fun h => (by cases h)⟩
  seqColIdle _ := rfl
  seqColWait h := by cases h
  seqColStep := rfl
  curBit0 := by simp [State.resetWith]
  prevBit0 := by simp [State.resetWith]
  faultCode := ⟨fun _ => rfl, fun _ => rfl⟩
  pushFaultFree _ := rfl

/-! ### The invariant under every command and every step -/

/-- Reset leaves the transport and the ready line, which are outside the block (R20). -/
theorem Inv.applyReset (s : State) : Inv s.applyReset := (Inv.resetWith s.cfg).withEnv _ s.env

theorem Inv.finish_append (s : State) (size svc : Byte) (cmd : BitVec 16) (h : Inv s) (hb : s.status.busy = false) :
    Inv (s.finish (Machine.append size svc cmd s)) := by
  by_cases hcap : payloadCap < writeCursor s + footprint size.toNat
  · rw [append_overflow size svc cmd s hcap]
    exact h.raise s hb _ (by decide)
  · obtain ⟨m, hm, _⟩ := append_ok size svc cmd s (Nat.le_of_not_lt hcap)
    rw [hm]
    exact h.append s _ size svc cmd hm

theorem Inv.finish_put (s : State) (b : Byte) (h : Inv s) (hb : s.status.busy = false) :
    Inv (s.finish (Machine.put b s)) := by
  by_cases hclosed : s.drem = 0
  · rw [put_closed b s hclosed]
    exact h.raise s hb _ (by decide)
  · have hput := put_open b s hclosed
    rw [hput]
    exact h.put s _ b hput

/-- A command runs with BUSY and FAULT 0 (R23), so the fault it records meets no push (R118). -/
theorem Inv.exec (i : Instr) (s t : State) (h : Inv s) (hb : s.status.busy = false) (hf : s.status.fault = false)
    (he : Machine.exec i s = .next t) : Inv t := by
  cases i with
  | beginFrame => cases he; exact h.beginFrame
  | append size svc cmd => cases he; exact h.finish_append s size svc cmd hb
  | putData b =>
    rw [execPutData_next b s t he]
    exact h.finish_put s b hb
  | finalize => cases he; exact h.finalize
  | formatBeginUpdate =>
    obtain ⟨u, hu, _⟩ := formatBeginUpdate_ok s
    rw [exec_formatBeginUpdate s u hu] at he
    cases he
    exact h.formatBeginUpdate s t hu
  | formatBatch col =>
    cases he
    split
    · exact h.raise s hb _ (by decide)
    next hcol =>
      obtain ⟨u, hu, _⟩ := formatBatch_ok col.toNat s
      rw [hu]
      exact h.formatBatch s u _ (Nat.lt_of_not_le hcol) hu
  | pushFramebuffer =>
    cases he
    split
    · obtain ⟨_, _, hstart⟩ := startPush_ok s
      rw [hstart]
      exact h.startPush s _ hf hstart
    · exact h
  | clear color =>
    cases he
    exact h.withFb s _ (Memory.wf_ofBytesFrom _ _) (Memory.within_ofBytesFrom _ _ (by simp))
  | setPixel x y color =>
    cases he
    exact h.withFb s _ (setPx_wf _ _ _ _ _ h.fbForm) (setPx_within _ _ _ _ _ h.fbSize)
  | fillRect x y w h' color =>
    cases he
    exact h.withFb s _ (fillRows_keeps Memory.wf _ _ _ _ (fun m x y hm => setPx_wf _ m x y _ hm) _ h.fbForm)
      (fillRows_keeps (Memory.within s.cfg.fbBytes) _ _ _ _ (fun m x y hm => setPx_within _ m x y _ hm) _ h.fbSize)
  | exchange => cases he; exact h.exchange
  | decode => cases he; exact h.decodeResponse
  | pollReady => cases he; exact { h with }
  | readTx | readRx =>
    cases he
    split
    · exact h.raise s hb _ (by decide)
    · exact h.withRes s _
  | getPixel | isPressed | isDown | isUp => cases he; exact h.withRes s _

/-- Every step keeps the invariant: reset, the batch step, a held or empty port, a refused word, a command. -/
theorem Inv.step (s t : State) (h : Inv s) (hs : Machine.step s = .next t) : Inv t := by
  rcases step_cases s t hs with ⟨_, rfl⟩ | ⟨_, hseq, rfl⟩ | ⟨_, _, _, rfl⟩ | ⟨_, _, _, _, _, rfl⟩
    | ⟨_, _, hb, hf, _, rest, _, hrun⟩
  · exact Inv.applyReset s
  · exact h.pushBatch s hseq
  · exact h
  · exact h
  · have h' := h.withPort s rest
    rcases hrun with ⟨_, _, rfl⟩ | ⟨i, _, hexec⟩
    · exact h'.raise _ hb _ (by decide)
    · exact h'.exec i _ t hb hf hexec

/-! ### What commands and the push leave alone (R26, R33, R34, R39, R42) -/

/-- The start step of a push sends the begin-update frame, and the sequencer waits at column 0; FB and RES are as before
(R105). -/
theorem startPush_sends (s t : State) (h : startPush s = .ok t) :
    t.seq = .wait ∧ t.seqCol = 0 ∧ t.fb = s.fb ∧ t.res = s.res ∧ OnlySends (beginUpdateFrame s) s.env t.env := by
  obtain ⟨u, hu, hstart⟩ := startPush_ok s
  obtain rfl := Except.ok.inj (hstart.symm.trans h)
  obtain ⟨v, hv, hframe, _⟩ := formatBeginUpdate_ok s
  obtain rfl := Except.ok.inj (hu.symm.trans hv)
  obtain ⟨_, _, hfb, _, hres, _, _, _, _, _, _, henv⟩ := keeps_of_tx_window s u (by rw [hframe])
  obtain ⟨_, _, _, hfb', hres', _, _, _, _, _, _, henv', _⟩ := exchangeAndDecode_frame u
  have hsends := exchange_onlySends u
  rw [bytesFrom_frameSize, ← henv', henv] at hsends
  refine ⟨rfl, rfl, hfb'.trans hfb, hres'.trans hres, ?_⟩
  simpa only [beginUpdateFrame, hu] using hsends

theorem decodeResponse_fb_res (s : State) : (decodeResponse s).fb = s.fb ∧ (decodeResponse s).res = s.res := by
  obtain ⟨_, _, _, hfb, hres, _⟩ := decodeResponse_frame s
  exact ⟨hfb, hres⟩

theorem pushBatch_fb (s : State) : (pushBatch s).fb = s.fb := by
  cases hn : s.env.nextReady with
  | false => rw [pushBatch_false s hn]
  | true =>
    obtain ⟨_, _, _, _, _, hfb, _⟩ := pushBatch_sends s hn
    exact hfb

theorem pushBatch_fault (s : State) : (pushBatch s).status.fault = s.status.fault := by
  cases hn : s.env.nextReady with
  | false => rw [pushBatch_false s hn]
  | true =>
    obtain ⟨_, _, _, _, _, _, _, _, _, _, _, _, _, _, _, hfault, _⟩ := pushBatch_sends s hn
    exact hfault

theorem exec_keepsFb (i : Instr) (s t : State) (h : exec i s = .next t) (hkind : i.draws = false) : t.fb = s.fb := by
  cases exec_ends i s t h with
  | drawn hdraws => rw [hkind] at hdraws; cases hdraws
  | decoded => exact (decodeResponse_fb_res s).1
  | pushStarted _ _ _ ht =>
    obtain ⟨_, _, hfb, _⟩ := startPush_sends s t ht
    exact hfb
  | exchanged => exact exchange_fb s
  | faulted | built | answered | polled | pushSkipped => rfl

theorem exec_keepsRes (i : Instr) (s t : State) (h : exec i s = .next t) (hkind : i.answersInRes = false) :
    t.res = s.res := by
  cases exec_ends i s t h with
  | answered hanswers => rw [hkind] at hanswers; cases hanswers
  | decoded => exact (decodeResponse_fb_res s).2
  | pushStarted _ _ _ ht =>
    obtain ⟨_, _, _, hres, _⟩ := startPush_sends s t ht
    exact hres
  | exchanged => exact exchange_res s
  | faulted | built | drawn | polled | pushSkipped => rfl

theorem exec_keepsButtons (i : Instr) (s t : State) (h : exec i s = .next t) (hdecode : i ≠ .decode)
    (hpush : i ≠ .pushFramebuffer) : KeepsButtons s t := by
  cases exec_ends i s t h with
  | decoded hi => exact absurd hi hdecode
  | pushSkipped hi | pushStarted hi => exact absurd hi hpush
  | exchanged => exact ⟨exchange_btnCur s, exchange_btnPrev s⟩
  | faulted | built | drawn | answered | polled => exact ⟨rfl, rfl⟩

theorem exec_keepsTransport (i : Instr) (s t : State) (h : exec i s = .next t) (hexchange : i ≠ .exchange)
    (hpush : i ≠ .pushFramebuffer) :
    t.env.transfers = s.env.transfers ∧ t.env.wire = s.env.wire ∧ t.env.transferIn = s.env.transferIn ∧ t.rx = s.rx := by
  cases exec_ends i s t h with
  | exchanged hi => exact absurd hi hexchange
  | pushSkipped hi | pushStarted hi => exact absurd hi hpush
  | decoded =>
    obtain ⟨_, _, hrx, _, _, _, _, _, _, _, _, henv, _⟩ := decodeResponse_frame s
    rw [henv]
    exact ⟨rfl, rfl, rfl, hrx⟩
  | faulted | built | drawn | answered | polled => exact ⟨rfl, rfl, rfl, rfl⟩

theorem step_keepsCfg (s t : State) (h : step s = .next t) : t.cfg = s.cfg := by
  rcases step_cases s t h with ⟨_, rfl⟩ | ⟨_, _, rfl⟩ | ⟨_, _, _, rfl⟩ | ⟨_, _, _, _, _, rfl⟩
    | ⟨_, _, _, _, _, _, _, ⟨_, _, rfl⟩ | ⟨i, _, hexec⟩⟩
  · rfl
  · obtain ⟨⟨hcfg, _⟩, _⟩ := pushBatch_keepsInputsAndConnected s
    exact hcfg
  · rfl
  · rfl
  · rfl
  · obtain ⟨hcfg, _⟩ := exec_keepsInputs i _ t hexec
    exact hcfg

/-! ### The batches of a push, counted (R108) -/

theorem batchesFrom_pos (c : Config) (col : Nat) (hcol : col < c.W) : 0 < batchesFrom c col := by
  simp only [batchesFrom]
  omega

theorem batchesFrom_last (c : Config) (col : Nat) (hcol : col < c.W) (hlast : c.W ≤ col + batchCols) :
    batchesFrom c col = 1 := by
  simp only [batchesFrom, batchCols] at *
  omega

theorem batchesFrom_next (c : Config) (col : Nat) (hnext : col + batchCols < c.W) :
    batchesFrom c col = batchesFrom c (col + batchCols) + 1 := by
  simp only [batchesFrom, batchCols] at *
  omega

/-- The last batch of a push has 1, 2 or 3 columns (R108). -/
theorem columns_of_last_batch (c : Config) :
    1 ≤ c.W - 3 * (batchesFrom c 0 - 1) ∧ c.W - 3 * (batchesFrom c 0 - 1) ≤ 3 := by
  have hW := c.fits.widthOne
  simp only [batchesFrom]
  omega

theorem batchFrame_congr (s t : State) (col : Nat) (hcfg : t.cfg = s.cfg) (hfb : t.fb = s.fb) :
    batchFrame t col = batchFrame s col := by
  obtain ⟨u, hu, _⟩ := formatBatch_ok col s
  obtain ⟨v, hv, _⟩ := formatBatch_ok col t
  simp only [batchFrame, hu, hv, formatBatch_congr col s t u v hcfg hfb hu hv]

/-- The frames of the batches from column `col` to the end of the grid, in the order they are sent (R108). -/
def batchFramesFrom (s : State) (col : Nat) : List Byte :=
  ((List.range (batchesFrom s.cfg col)).map (fun k => batchFrame s (col + 3 * k))).flatten

theorem batchFramesFrom_last (s : State) (col : Nat) (hcol : col < s.cfg.W) (hlast : s.cfg.W ≤ col + batchCols) :
    batchFramesFrom s col = batchFrame s col := by
  simp [batchFramesFrom, batchesFrom_last s.cfg col hcol hlast]

theorem batchFramesFrom_next (s : State) (col : Nat) (hnext : col + batchCols < s.cfg.W) :
    batchFramesFrom s col = batchFrame s col ++ batchFramesFrom s (col + batchCols) := by
  have hshift (k : Nat) : col + 3 * (k + 1) = col + batchCols + 3 * k := by simp only [batchCols]; omega
  simp only [batchFramesFrom, batchesFrom_next s.cfg col hnext, List.range_succ_eq_map, List.map_cons, List.map_map,
    List.flatten_cons, Function.comp_def, Nat.succ_eq_add_one, hshift, Nat.mul_zero, Nat.add_zero]

theorem batchFramesFrom_congr (s t : State) (col : Nat) (hcfg : t.cfg = s.cfg) (hfb : t.fb = s.fb) :
    batchFramesFrom t col = batchFramesFrom s col := by
  simp only [batchFramesFrom, hcfg, batchFrame_congr s t _ hcfg hfb]

/-! ### A push from a column to its end (R106, R108) -/

/-- `u` is the end of the push in progress in `s`: the sequencer rests, `n` samples were drawn, and the frames of the
batches from SEQ_COL on were sent, one exchange each. -/
structure PushEndsIn (s : State) (n : Nat) (u : State) : Prop where
  seq : u.seq = .idle
  seqCol : u.seqCol = 0
  busy : u.status.busy = false
  fault : u.status.fault = s.status.fault
  port : u.port = s.port
  fb : u.fb = s.fb
  transfers : u.env.transfers = s.env.transfers + 252 * batchesFrom s.cfg s.seqCol.toNat
  samples : u.env.samples = s.env.samples + n
  readyIn : u.env.readyIn = s.env.readyIn.drop n
  wire : u.env.wire = s.env.wire ++ batchFramesFrom s s.seqCol.toNat

/-- A batch step on a true sample sends the batch frame of SEQ_COL, after drawing the sample (R106). -/
theorem pushBatch_env (s : State) (h : s.env.nextReady = true) :
    OnlySends (batchFrame s s.seqCol.toNat) s.env.afterSample (pushBatch s).env := by
  obtain ⟨u, hu, _, _, _, _, _, _, _, _, _, henv, hu_env, _⟩ := pushBatch_sends s h
  have hsends := exchange_onlySends u
  rw [bytesFrom_frameSize, ← henv, hu_env] at hsends
  have hframe : batchFrame { s with env := s.env.afterSample } s.seqCol.toNat = frameBytes u.tx := by
    simp only [batchFrame, hu]
  rwa [← batchFrame_congr s { s with env := s.env.afterSample } _ rfl rfl, hframe]

/-- The batch that reaches the last column lets the sequencer rest (R106). -/
theorem pushBatch_rests (s : State) (hn : s.env.nextReady = true) (hlast : s.cfg.W ≤ s.seqCol.toNat + batchCols) :
    (pushBatch s).seq = .idle ∧ (pushBatch s).seqCol = 0 ∧ (pushBatch s).status.busy = false := by
  obtain ⟨_, _, _, _, _, _, _, _, _, _, _, _, _, _, _, _, _, _, _, _, _, hend, _⟩ := pushBatch_sends s hn
  exact hend hlast

/-- A batch before the last one moves the sequencer three columns on; a column fits SEQ_COL, as W is at most 2047 (R106). -/
theorem pushBatch_moves (s : State) (hn : s.env.nextReady = true) (hnext : s.seqCol.toNat + batchCols < s.cfg.W) :
    (pushBatch s).seq = s.seq ∧ (pushBatch s).seqCol.toNat = s.seqCol.toNat + batchCols := by
  obtain ⟨_, _, _, _, _, _, _, _, _, _, _, _, _, _, _, _, _, _, _, _, _, _, hmove⟩ := pushBatch_sends s hn
  obtain ⟨hseq, hseqCol, _⟩ := hmove (Nat.not_le.mpr hnext)
  have hW := s.cfg.fits.widthCoord
  refine ⟨hseq, ?_⟩
  rw [hseqCol, BitVec.toNat_ofNat]
  exact Nat.mod_eq_of_lt (by omega)

/-- A false sample before the push goes on only adds to the samples. -/
theorem PushEndsIn.after_false (s u : State) (n : Nat) (h : PushEndsIn { s with env := s.env.afterSample } n u) :
    PushEndsIn s (n + 1) u where
  seq := h.seq
  seqCol := h.seqCol
  busy := h.busy
  fault := h.fault
  port := h.port
  fb := h.fb
  transfers := h.transfers
  samples := h.samples.trans (by simp only [Env.afterSample_samples]; omega)
  readyIn := h.readyIn.trans (by simp)
  wire := h.wire.trans (by rw [batchFramesFrom_congr s { s with env := s.env.afterSample } _ rfl rfl]; rfl)

theorem length_beginUpdateFrame (s : State) : (beginUpdateFrame s).length = 252 := by
  obtain ⟨u, hu, _⟩ := formatBeginUpdate_ok s
  simp [beginUpdateFrame, hu, frameBytes]

theorem length_batchFrame (s : State) (col : Nat) : (batchFrame s col).length = 252 := by
  obtain ⟨u, hu, _⟩ := formatBatch_ok col s
  simp [batchFrame, hu, frameBytes]

/-- The batch that reaches the last column ends the push. -/
theorem PushEndsIn.last_batch (s : State) (hn : s.env.nextReady = true) (hcol : s.seqCol.toNat < s.cfg.W)
    (hlast : s.cfg.W ≤ s.seqCol.toNat + batchCols) : PushEndsIn s 1 (pushBatch s) := by
  obtain ⟨hseq, hseqCol, hbusy⟩ := pushBatch_rests s hn hlast
  obtain ⟨⟨_, hport, _⟩, _⟩ := pushBatch_keepsInputsAndConnected s
  obtain ⟨_, htransfers, hwire, hready, hsamples⟩ := pushBatch_env s hn
  rw [length_batchFrame] at htransfers
  refine ⟨hseq, hseqCol, hbusy, pushBatch_fault s, hport, pushBatch_fb s, ?_, hsamples, ?_, ?_⟩
  · rw [htransfers, batchesFrom_last s.cfg _ hcol hlast]; rfl
  · rw [hready, Env.afterSample_readyIn, List.drop_one]
  · rw [hwire, batchFramesFrom_last s _ hcol hlast]; rfl

/-- A batch before the last one moves the push three columns on. -/
theorem PushEndsIn.after_batch (s u : State) (n : Nat) (hn : s.env.nextReady = true)
    (hnext : s.seqCol.toNat + batchCols < s.cfg.W) (h : PushEndsIn (pushBatch s) n u) : PushEndsIn s (n + 1) u := by
  obtain ⟨_, hcol⟩ := pushBatch_moves s hn hnext
  obtain ⟨⟨hcfg, hport, _⟩, _⟩ := pushBatch_keepsInputsAndConnected s
  obtain ⟨_, htransfers, hwire, hready, hsamples⟩ := pushBatch_env s hn
  rw [length_batchFrame] at htransfers
  refine ⟨h.seq, h.seqCol, h.busy, h.fault.trans (pushBatch_fault s), h.port.trans hport, h.fb.trans (pushBatch_fb s),
    ?_, ?_, ?_, ?_⟩
  · rw [h.transfers, htransfers, hcfg, hcol, batchesFrom_next s.cfg _ hnext, Env.afterSample_transfers]
    omega
  · rw [h.samples, hsamples, Env.afterSample_samples]
    omega
  · rw [h.readyIn, hready, Env.afterSample_readyIn, List.drop_tail]
  · rw [h.wire, hwire, hcol, batchFramesFrom_congr s _ _ hcfg (pushBatch_fb s),
      batchFramesFrom_next s _ hnext, List.append_assoc, Env.afterSample_wire]

/-- A push in progress ends at the true sample that completes its count, whatever false ones stand between; by induction on
the samples before that one. -/
theorem run_push_ends (front r : List Bool) (s : State) (hr : s.resetIn = false) (hs : s.seq = .wait)
    (hcol : s.seqCol.toNat < s.cfg.W) (hin : s.env.readyIn = front ++ true :: r)
    (hcount : front.count true + 1 = batchesFrom s.cfg s.seqCol.toNat) :
    ∃ u, Host.Core.run Sys2Proof.core (front.length + 1) s = .next u ∧ PushEndsIn s (front.length + 1) u := by
  induction front generalizing s with
  | nil =>
    have hn := s.env.nextReady_of_cons true r hin
    have hlast : s.cfg.W ≤ s.seqCol.toNat + batchCols := by
      simp only [batchesFrom, batchCols, List.count_nil] at hcount ⊢
      omega
    exact ⟨_, run_succ 0 s _ (step_wait s hr hs), PushEndsIn.last_batch s hn hcol hlast⟩
  | cons b front ih =>
    have hn := s.env.nextReady_of_cons b _ hin
    have hrest : s.env.afterSample.readyIn = front ++ true :: r := by
      rw [Env.afterSample_readyIn, hin, List.cons_append, List.tail_cons]
    cases b with
    | false =>
      obtain ⟨u, hrun, hends⟩ := ih { s with env := s.env.afterSample } hr hs hcol hrest (by simpa using hcount)
      exact ⟨u, (run_succ _ s _ (step_wait_false s hr hs hn)).trans hrun, hends.after_false s u _⟩
    | true =>
      rw [List.count_cons_self] at hcount
      have hnext : s.seqCol.toNat + batchCols < s.cfg.W := by
        simp only [batchesFrom, batchCols] at hcount ⊢
        omega
      obtain ⟨hseq, hmoved⟩ := pushBatch_moves s hn hnext
      obtain ⟨⟨hcfg, _, hreset⟩, _⟩ := pushBatch_keepsInputsAndConnected s
      obtain ⟨_, _, _, hready, _⟩ := pushBatch_env s hn
      have hcount' : front.count true + 1 = batchesFrom s.cfg (s.seqCol.toNat + batchCols) := by
        rw [batchesFrom_next s.cfg _ hnext] at hcount
        omega
      obtain ⟨u, hrun, hends⟩ := ih (pushBatch s) (hreset.trans hr) (hseq.trans hs) (by rw [hmoved, hcfg]; exact hnext)
        (hready.trans hrest) (by rw [hmoved, hcfg]; exact hcount')
      exact ⟨u, (run_succ _ s _ (step_wait s hr hs)).trans hrun, hends.after_batch s u _ hn hnext⟩

/-- A list with more than `n` true samples has one behind exactly `n` others. -/
theorem exists_true_behind_of_lt_count (l : List Bool) (n : Nat) (h : n < l.count true) :
    ∃ front r, l = front ++ true :: r ∧ front.count true = n := by
  induction l generalizing n with
  | nil => simp at h
  | cons b l ih =>
    cases b with
    | false =>
      obtain ⟨front, r, rfl, hfront⟩ := ih n (by simpa using h)
      exact ⟨false :: front, r, rfl, by simpa using hfront⟩
    | true =>
      cases n with
      | zero => exact ⟨[], l, rfl, rfl⟩
      | succ n =>
        obtain ⟨front, r, rfl, hfront⟩ := ih n (by simpa using h)
        exact ⟨true :: front, r, rfl, by simpa using hfront⟩

/-! ### The button queries (R110 to R112) -/

theorem flagByte_eq_one_iff (b : Bool) : flagByte b = 1 ↔ b = true := by cases b <;> decide

end Sys2Proof.Machine

namespace Sys2Proof.Proofs

open Sys2Proof.Machine

/-- Settles O9: the op and the fields of a well-formed command are a word of it. -/
theorem decodeOfEncodeIsTheCommand : Obligations.DecodeOfEncodeIsTheCommand := by
  intro i hwf
  obtain ⟨_, hdecode⟩ := encodesAs_of_wf i hwf
  exact hdecode

/-- Settles O43, by what a step can do: each operation keeps the invariant. -/
theorem everyStepKeepsTheInvariant : Obligations.EveryStepKeepsTheInvariant :=
  fun s t h hs => h.step s t hs

/-- Settles O10: under the mask a word is its op and its fields, which are those of the command built from it. -/
theorem encodeOfDecodeIsTheWord : Obligations.EncodeOfDecodeIsTheWord := by
  intro cw i h
  obtain ⟨hbuild, hmask⟩ := (decode_eq_ok_iff cw i).mp h
  rw [← setWidth_opOf_of_buildInstr cw i hbuild, mask_test_iff] at hmask
  refine ⟨wf_of_buildInstr cw i hbuild, ?_⟩
  rw [encode, opcode_add_fieldBits_of_buildInstr cw i hbuild hmask, BitVec.ofNat_toNat, BitVec.setWidth_eq]

/-- Settles O12: an op that is not reserved has a format, whose mask a word without reserved bits passes. -/
theorem reservedEncodingsAreRefused : Obligations.ReservedEncodingsAreRefused := by
  refine fun cw => ⟨decode_of_reservedOp cw, decode_of_reservedBitSet cw, fun hop hbits => ?_⟩
  obtain ⟨f, hf⟩ := Option.ne_none_iff_exists'.mp (mt (reservedOp_of_opFormat cw) hop)
  obtain ⟨i, hi⟩ := buildInstr_of_opFormat cw f hf
  obtain rfl : i.format = f := by simpa using (opFormat_of_buildInstr cw i hi).symm.trans hf
  refine ⟨i, (decode_eq_ok_iff cw i).mpr ⟨hi, ?_⟩⟩
  rw [(mask_test_iff cw _).mpr (toNat_lt_of_not_reservedBitSet cw _ hf hbits), setWidth_opOf_of_buildInstr cw i hi]

/-- Settles O21: the scan and the data it gives lie below its bound. -/
theorem scanIgnoresBytesBeyondPayloadLength : Obligations.ScanIgnoresBytesBeyondPayloadLength :=
  fun f g hlen h => ⟨scan_congr f g hlen h, fun p hp => data_congr_of_mem_scan f g p hp h⟩

/-- Settles O37: the start step sends the begin-update frame and waits at column 0, from where the push ends. -/
theorem pushSendsEveryBatchOnce : Obligations.PushSendsEveryBatchOnce := by
  intro s l r hc hr hin hcount hlast
  obtain ⟨front, rfl⟩ := List.getLast?_eq_some_iff.mp hlast
  obtain ⟨t, ht⟩ : ∃ t, startPush s = .ok t := by
    obtain ⟨_, _, hstart⟩ := startPush_ok s
    exact ⟨_, hstart⟩
  obtain ⟨⟨hcfg, hport, hreset⟩, _⟩ := startPush_keepsInputsAndConnected s t ht
  obtain ⟨hseq, hcol, hfb, _, _, htransfers, hwire, hready, hsamples⟩ := startPush_sends s t ht
  have hcol0 : t.seqCol.toNat = 0 := congrArg BitVec.toNat hcol
  have hW := s.cfg.fits.widthOne
  have hin' : s.env.readyIn = front ++ true :: r := by rw [hin, List.append_assoc, List.singleton_append]
  rw [List.count_append, List.count_singleton_self] at hcount
  obtain ⟨u, hrun, hends⟩ := run_push_ends front r t (hreset.trans hr) hseq (by rw [hcol0, hcfg]; exact hW)
    (hready.trans hin') (by rw [hcol0, hcfg]; exact hcount)
  rw [length_beginUpdateFrame] at htransfers
  rw [List.length_append, List.length_singleton]
  refine ⟨t, u, exec_pushFramebuffer_connected s t hc ht, hrun, hends.seq, hends.seqCol, hends.busy,
    hends.fault.trans (startPush_fault s t ht), hends.port.trans hport,
    fun a => congrArg (Memory.read · a) (hends.fb.trans hfb), ?_, ?_, ?_, ?_, columns_of_last_batch s.cfg⟩
  · rw [hends.transfers, htransfers, hcfg, hcol0]
    omega
  · rw [hends.samples, hsamples]
  · rw [hends.readyIn, hready, hin, List.drop_left' (by simp)]
  · rw [hends.wire, hwire, hcol0, batchFramesFrom_congr s t 0 hcfg hfb]
    simp only [batchFramesFrom, Nat.zero_add]

/-- Settles O38: the push ends at the true sample that completes its count, and the listed samples hold that one. -/
theorem pushEndsAfterEnoughReadySamples : Obligations.PushEndsAfterEnoughReadySamples := by
  intro s hr hs hcol hcount
  obtain ⟨n, hn⟩ := Nat.exists_eq_add_of_lt (batchesFrom_pos s.cfg _ hcol)
  rw [Nat.zero_add] at hn
  obtain ⟨front, r, hin, hfront⟩ := exists_true_behind_of_lt_count s.env.readyIn n (by omega)
  obtain ⟨u, hrun, hends⟩ := run_push_ends front r s hr hs hcol hin (by rw [hfront, hn])
  refine ⟨_, u, ?_, hrun, hends.seq, hends.busy, hends.transfers⟩
  rw [hin, List.length_append, List.length_cons]
  omega

/-- Settles O47, by the ends of a command that write the masks. -/
theorem masksChangeOnlyByDecoding : Obligations.MasksChangeOnlyByDecoding := exec_keepsButtons

/-- Settles O48, by the ends of a command that exchange a frame. -/
theorem transportIsTouchedOnlyByExchange : Obligations.TransportIsTouchedOnlyByExchange := by
  intro i s t h hexchange hpush
  obtain ⟨htransfers, hwire, htransferIn, hrx⟩ := exec_keepsTransport i s t h hexchange hpush
  exact ⟨htransfers, hwire, htransferIn, fun a => congrArg (Memory.read · a) hrx⟩

/-- Settles O49: no end of another command writes FB, and no batch step does. -/
theorem framebufferChangesOnlyByDrawing : Obligations.FramebufferChangesOnlyByDrawing := by
  refine ⟨fun i s t h hclear hset hfill a => ?_, fun s t h hr hs a => ?_⟩
  · refine congrArg (Memory.read · a) (exec_keepsFb i s t h ?_)
    cases i with
    | clear c => exact absurd rfl (hclear c)
    | setPixel x y c => exact absurd rfl (hset x y c)
    | fillRect x y w e c => exact absurd rfl (hfill x y w e c)
    | _ => rfl
  · rw [step_wait s hr hs] at h
    cases h
    exact congrArg (Memory.read · a) (pushBatch_fb s)

/-- Settles O50: no end of another command writes RES. -/
theorem resultChangesOnlyByReads : Obligations.ResultChangesOnlyByReads := by
  intro i s t h hgetPixel hreadTx hreadRx hpressed hdown hup
  refine exec_keepsRes i s t h ?_
  cases i with
  | getPixel x y => exact absurd rfl (hgetPixel x y)
  | readTx x => exact absurd rfl (hreadTx x)
  | readRx x => exact absurd rfl (hreadRx x)
  | isPressed m => exact absurd rfl (hpressed m)
  | isDown m => exact absurd rfl (hdown m)
  | isUp m => exact absurd rfl (hup m)
  | _ => rfl

/-- Settles O51, by what a step can do. -/
theorem configurationNeverChanges : Obligations.ConfigurationNeverChanges := step_keepsCfg

/-- Settles O1: outside a push and without reset the step is the port's, which runs the decoded command. -/
theorem stepRunsTheDecodedCommand : Obligations.StepRunsTheDecodedCommand := by
  intro s cw rest i hr hs hb hf hport hdecode
  rw [step_idle s hr hs, portStep_accepts s cw rest hb hf hport]
  simp only [runWord, hdecode]

/-- Settles O5: the three stores are empty after reset, and every register of the host port reads 0. -/
theorem powerOnReadsZero : Obligations.PowerOnReadsZero :=
  ⟨⟨Config.part, rfl⟩, fun c => ⟨rfl, fun a => ⟨Memory.read_nil a, Memory.read_nil a, Memory.read_nil a⟩,
    hostRead_resetWith c, rfl, rfl, rfl, rfl⟩⟩

/-- Settles O8, word by word. -/
theorem wordsOfTheSpecDecode : Obligations.WordsOfTheSpecDecode := by
  refine ⟨?_, ?_, ?_, ?_, ?_, ?_, ?_, ?_, ?_, ?_⟩ <;> decide

/-- Settles O17: the check of the window comes before `put`. -/
theorem putDataPastTxStops : Obligations.PutDataPastTxStops :=
  fun _ _ hopen hpast => if_pos ⟨hopen, hpast⟩

/-- Settles O40: the two edges ask opposite things of the current mask, and each asks the masks to differ. -/
theorem edgesExcludeEachOther : Obligations.EdgesExcludeEachOther := by
  intro s t u v mask hdown hup hpressed
  cases hdown
  cases hup
  cases hpressed
  refine ⟨?_, fun heq => ?_, fun hbit => ?_⟩
  · simp only [flagByte_eq_one_iff, Bool.and_eq_true, Bool.not_eq_true']
    rintro ⟨⟨hcur, _⟩, hcur', _⟩
    exact Bool.false_ne_true (hcur'.symm.trans hcur)
  · rw [heq]
    exact ⟨congrArg flagByte (Bool.and_not_self _), congrArg flagByte (Bool.not_and_self _)⟩
  · exact congrArg flagByte (anyButton_one_of_bit0 _ hbit)

/-- Settles O42: the machine right after reset meets each clause. -/
theorem invariantHoldsAtReset : Obligations.InvariantHoldsAtReset := ⟨Inv.resetWith _, Inv.resetWith⟩

end Sys2Proof.Proofs
end
